-- ==== Sys2Proof/Word.lean ====
section
/-! DEFINITION. The bit-vector types of the engine's values and instruction fields. -/

namespace Sys2Proof

/-- A general register, a memory cell or a timer: 8 bits (00_scope.md R4, `XLEN`). -/
abbrev Byte := BitVec 8

/-- An instruction word, `I`, `PC` or a stack entry: 16 bits (R4, `ILEN`, `PCLEN`, `STACK_WIDTH`). -/
abbrev Word := BitVec 16

/-- A register index `X` or `Y`: a 4-bit field (30_encoding.md R91), so none is out of `0..15` (10_state.md R20). -/
abbrev Reg := BitVec 4

/-- The sprite height `N`: a 4-bit immediate (R91). -/
abbrev Nibble := BitVec 4

/-- The address immediate `NNN`: 12 bits (R91). -/
abbrev Addr := BitVec 12

end Sys2Proof
end

