-- ==== Sys2Proof/Syntax.lean ====
section
/-! DEFINITION. The instructions: one constructor per row of spec/opcode_table.json (30_encoding.md R95), its operands
the fields of the row's format (R91, R92). The operand types are exactly as wide as the fields (R93), so every
`Instr` is an instruction some word encodes. -/

namespace Sys2Proof

/-- One instruction of the opcode map, in the table's order. -/
inductive Instr where
  | idle                                  -- 0000
  | cls                                   -- 00E0
  | ret                                   -- 00EE
  | jp    (nnn : Addr)                    -- 1NNN
  | call  (nnn : Addr)                    -- 2NNN
  | sei   (x : Reg) (nn : Byte)           -- 3XNN
  | snei  (x : Reg) (nn : Byte)           -- 4XNN
  | ser   (x y : Reg)                     -- 5XY0
  | ldi   (x : Reg) (nn : Byte)           -- 6XNN
  | addi  (x : Reg) (nn : Byte)           -- 7XNN
  | mov   (x y : Reg)                     -- 8XY0
  | or    (x y : Reg)                     -- 8XY1
  | and   (x y : Reg)                     -- 8XY2
  | xor   (x y : Reg)                     -- 8XY3
  | add   (x y : Reg)                     -- 8XY4
  | sub   (x y : Reg)                     -- 8XY5
  | shr   (x y : Reg)                     -- 8XY6, `y` decoded and not used (R98)
  | subn  (x y : Reg)                     -- 8XY7
  | shl   (x y : Reg)                     -- 8XYE, `y` decoded and not used (R98)
  | sner  (x y : Reg)                     -- 9XY0
  | ldix  (nnn : Addr)                    -- ANNN
  | jpv0  (nnn : Addr)                    -- BNNN
  | rnd   (x : Reg) (nn : Byte)           -- CXNN
  | drw   (x y : Reg) (n : Nibble)        -- DXYN
  | skp   (x : Reg)                       -- EX9E
  | sknp  (x : Reg)                       -- EXA1
  | lddt  (x : Reg)                       -- FX07
  | wkey  (x : Reg)                       -- FX0A
  | stdt  (x : Reg)                       -- FX15
  | stst  (x : Reg)                       -- FX18
  | addix (x : Reg)                       -- FX1E
  | font  (x : Reg)                       -- FX29
  | bcd   (x : Reg)                       -- FX33
  | stm   (x : Reg)                       -- FX55
  | ldm   (x : Reg)                       -- FX65
  deriving DecidableEq, Repr

end Sys2Proof
end

