-- ==== Sys2Proof/Decode.lean ====
section
/-! DEFINITION. The decoder (30_encoding.md R90 to R98), and the encoder written from the same encoding tables. -/

namespace Sys2Proof

/-! ## Fields and formats -/

/-- The high nibble `op[15:12]`, the primary opcode (R91). -/
def opField (w : Word) : BitVec 4 := w.extractLsb' 12 4

/-- `X = op[11:8]` (R91). -/
def xField (w : Word) : Reg := w.extractLsb' 8 4

/-- `Y = op[7:4]` (R91). -/
def yField (w : Word) : Reg := w.extractLsb' 4 4

/-- `N = op[3:0]` (R91). -/
def nField (w : Word) : Nibble := w.extractLsb' 0 4

/-- `NN = op[7:0]` (R91). -/
def nnField (w : Word) : Byte := w.extractLsb' 0 8

/-- `NNN = op[11:0]` (R91). -/
def nnnField (w : Word) : Addr := w.extractLsb' 0 12

/-- Format `NNN` of R92. -/
def wordNNN (op : BitVec 4) (nnn : Addr) : Word := op ++ nnn

/-- Format `XNN` of R92; format `X` is the same with its two sub-opcode digits as the low byte. -/
def wordXNN (op : BitVec 4) (x : Reg) (nn : Byte) : Word := op ++ x ++ nn

/-- Format `XYN` of R92; format `XY` is the same with its sub-opcode as the low digit. -/
def wordXYN (op : BitVec 4) (x y : Reg) (n : Nibble) : Word := op ++ x ++ y ++ n

/-! ## Decoding -/

/-- Why bytes are no instruction. -/
inductive DecodeError where
  /-- The word matches no row of R95 (R96). -/
  | unknownOpcode (w : Word)
  /-- Fewer than two bytes were given, and every instruction is two bytes long (R90). -/
  | tooShort
  deriving DecidableEq, Repr

/-- High nibble `0`: the whole word selects (R94); `0x0000` is `IDLE`, never unknown (R97). -/
def decodeZero (w : Word) : Except DecodeError Instr :=
  match w.toNat with
  | 0x0000 => .ok .idle
  | 0x00E0 => .ok .cls
  | 0x00EE => .ok .ret
  | _ => .error (.unknownOpcode w)

/-- High nibble `8`: the low nibble selects (R94). -/
def decodeEight (w : Word) : Except DecodeError Instr :=
  match (nField w).toNat with
  | 0x0 => .ok (.mov (xField w) (yField w))
  | 0x1 => .ok (.or (xField w) (yField w))
  | 0x2 => .ok (.and (xField w) (yField w))
  | 0x3 => .ok (.xor (xField w) (yField w))
  | 0x4 => .ok (.add (xField w) (yField w))
  | 0x5 => .ok (.sub (xField w) (yField w))
  | 0x6 => .ok (.shr (xField w) (yField w))
  | 0x7 => .ok (.subn (xField w) (yField w))
  | 0xE => .ok (.shl (xField w) (yField w))
  | _ => .error (.unknownOpcode w)

/-- High nibble `E`: the low byte selects (R94). -/
def decodeE (w : Word) : Except DecodeError Instr :=
  match (nnField w).toNat with
  | 0x9E => .ok (.skp (xField w))
  | 0xA1 => .ok (.sknp (xField w))
  | _ => .error (.unknownOpcode w)

/-- High nibble `F`: the low byte selects (R94). -/
def decodeF (w : Word) : Except DecodeError Instr :=
  match (nnField w).toNat with
  | 0x07 => .ok (.lddt (xField w))
  | 0x0A => .ok (.wkey (xField w))
  | 0x15 => .ok (.stdt (xField w))
  | 0x18 => .ok (.stst (xField w))
  | 0x1E => .ok (.addix (xField w))
  | 0x29 => .ok (.font (xField w))
  | 0x33 => .ok (.bcd (xField w))
  | 0x55 => .ok (.stm (xField w))
  | 0x65 => .ok (.ldm (xField w))
  | _ => .error (.unknownOpcode w)

/-- The instruction a word stands for (R94: branch on the high nibble, then on the secondary selector). -/
def decode (w : Word) : Except DecodeError Instr :=
  match (opField w).toNat with
  | 0x0 => decodeZero w
  | 0x1 => .ok (.jp (nnnField w))
  | 0x2 => .ok (.call (nnnField w))
  | 0x3 => .ok (.sei (xField w) (nnField w))
  | 0x4 => .ok (.snei (xField w) (nnField w))
  | 0x5 => if nField w = 0 then .ok (.ser (xField w) (yField w)) else .error (.unknownOpcode w)
  | 0x6 => .ok (.ldi (xField w) (nnField w))
  | 0x7 => .ok (.addi (xField w) (nnField w))
  | 0x8 => decodeEight w
  | 0x9 => if nField w = 0 then .ok (.sner (xField w) (yField w)) else .error (.unknownOpcode w)
  | 0xA => .ok (.ldix (nnnField w))
  | 0xB => .ok (.jpv0 (nnnField w))
  | 0xC => .ok (.rnd (xField w) (nnField w))
  | 0xD => .ok (.drw (xField w) (yField w) (nField w))
  | 0xE => decodeE w
  | _ => decodeF w

/-- The word two consecutive bytes form: big-endian, `256 * first + second` (R90, 20_memory.md R66). -/
def wordOfBytes (hi lo : Byte) : Word := hi ++ lo

/-- The two bytes of a word, in the order memory holds them (R66). -/
def bytesOfWord (w : Word) : List Byte := [w.extractLsb' 8 8, w.extractLsb' 0 8]

/-- Decoding a byte stream: the first instruction and the bytes after it. -/
def decodeBytes : List Byte → Except DecodeError (Instr × List Byte)
  | hi :: lo :: rest =>
    match decode (wordOfBytes hi lo) with
    | .ok i => .ok (i, rest)
    | .error e => .error e
  | [] => .error .tooShort
  | [_] => .error .tooShort

/-- The word an opcode-table row's bits stand for: the bits above `nbits` are 0. -/
def tableWord (nbits w : Nat) : Word := BitVec.ofNat 16 (w % 2 ^ nbits)

/-- The instruction the decoder reads from an instruction of the opcode table with bits `w`; every row has 16. -/
def decodeTableWord (nbits w : Nat) : Option Instr :=
  if nbits ≤ 16 then
    match decodeBytes (bytesOfWord (tableWord nbits w)) with
    | .ok (i, _) => some i
    | .error _ => none
  else none

/-! ## Encoding -/

/-- The word of an instruction, from the formats of R92 and the fixed digits of R95. -/
def encode : Instr → Word
  | .idle => 0x0000
  | .cls => 0x00E0
  | .ret => 0x00EE
  | .jp nnn => wordNNN 0x1 nnn
  | .call nnn => wordNNN 0x2 nnn
  | .sei x nn => wordXNN 0x3 x nn
  | .snei x nn => wordXNN 0x4 x nn
  | .ser x y => wordXYN 0x5 x y 0x0
  | .ldi x nn => wordXNN 0x6 x nn
  | .addi x nn => wordXNN 0x7 x nn
  | .mov x y => wordXYN 0x8 x y 0x0
  | .or x y => wordXYN 0x8 x y 0x1
  | .and x y => wordXYN 0x8 x y 0x2
  | .xor x y => wordXYN 0x8 x y 0x3
  | .add x y => wordXYN 0x8 x y 0x4
  | .sub x y => wordXYN 0x8 x y 0x5
  | .shr x y => wordXYN 0x8 x y 0x6
  | .subn x y => wordXYN 0x8 x y 0x7
  | .shl x y => wordXYN 0x8 x y 0xE
  | .sner x y => wordXYN 0x9 x y 0x0
  | .ldix nnn => wordNNN 0xA nnn
  | .jpv0 nnn => wordNNN 0xB nnn
  | .rnd x nn => wordXNN 0xC x nn
  | .drw x y n => wordXYN 0xD x y n
  | .skp x => wordXNN 0xE x 0x9E
  | .sknp x => wordXNN 0xE x 0xA1
  | .lddt x => wordXNN 0xF x 0x07
  | .wkey x => wordXNN 0xF x 0x0A
  | .stdt x => wordXNN 0xF x 0x15
  | .stst x => wordXNN 0xF x 0x18
  | .addix x => wordXNN 0xF x 0x1E
  | .font x => wordXNN 0xF x 0x29
  | .bcd x => wordXNN 0xF x 0x33
  | .stm x => wordXNN 0xF x 0x55
  | .ldm x => wordXNN 0xF x 0x65

/-! ## The opcode map's masks -/

/-- The `mask` and `match` columns of R95 for an instruction's row. -/
def rowOf : Instr → Word × Word
  | .idle => (0xFFFF, 0x0000)
  | .cls => (0xFFFF, 0x00E0)
  | .ret => (0xFFFF, 0x00EE)
  | .jp _ => (0xF000, 0x1000)
  | .call _ => (0xF000, 0x2000)
  | .sei _ _ => (0xF000, 0x3000)
  | .snei _ _ => (0xF000, 0x4000)
  | .ser _ _ => (0xF00F, 0x5000)
  | .ldi _ _ => (0xF000, 0x6000)
  | .addi _ _ => (0xF000, 0x7000)
  | .mov _ _ => (0xF00F, 0x8000)
  | .or _ _ => (0xF00F, 0x8001)
  | .and _ _ => (0xF00F, 0x8002)
  | .xor _ _ => (0xF00F, 0x8003)
  | .add _ _ => (0xF00F, 0x8004)
  | .sub _ _ => (0xF00F, 0x8005)
  | .shr _ _ => (0xF00F, 0x8006)
  | .subn _ _ => (0xF00F, 0x8007)
  | .shl _ _ => (0xF00F, 0x800E)
  | .sner _ _ => (0xF00F, 0x9000)
  | .ldix _ => (0xF000, 0xA000)
  | .jpv0 _ => (0xF000, 0xB000)
  | .rnd _ _ => (0xF000, 0xC000)
  | .drw _ _ _ => (0xF000, 0xD000)
  | .skp _ => (0xF0FF, 0xE09E)
  | .sknp _ => (0xF0FF, 0xE0A1)
  | .lddt _ => (0xF0FF, 0xF007)
  | .wkey _ => (0xF0FF, 0xF00A)
  | .stdt _ => (0xF0FF, 0xF015)
  | .stst _ => (0xF0FF, 0xF018)
  | .addix _ => (0xF0FF, 0xF01E)
  | .font _ => (0xF0FF, 0xF029)
  | .bcd _ => (0xF0FF, 0xF033)
  | .stm _ => (0xF0FF, 0xF055)
  | .ldm _ => (0xF0FF, 0xF065)

end Sys2Proof
end

