-- ==== Sys2Proof/Machine/Event.lean ====
section
/-! DEFINITION. The events that act on the engine (00_scope.md R5). -/

namespace Sys2Proof.Machine

/-- The atomic events of the environment and the engine (R5). -/
inductive Event where
  /-- The engine performs one `Step`. -/
  | step
  /-- The timer clock performs one `Tick` (60_exceptions.md R260). -/
  | tick
  /-- The host replaces the key flags (R263). -/
  | setKeys (k : BitVec 16)
  /-- The host clears the dirty flag (R264). -/
  | ackDirty
  /-- The host resets the engine with a program image (70_reset_and_hazards.md R290, R292). -/
  | reset (rom : List Byte)
  deriving DecidableEq, Repr, Inhabited

end Sys2Proof.Machine
end

