-- ==== Sys2Proof/Config.lean ====
section
/-! DEFINITION. The implementation parameters of 00_scope.md R4, and the two free values. -/

namespace Sys2Proof.Config

/-- `MEM_SIZE`: bytes of memory, addresses `0x000..0xFFF`. -/
abbrev memSize : Nat := 4096

/-- `GLYPH_BYTES`: bytes per glyph, glyph `n` standing at `5*n` (20_memory.md R62). -/
abbrev glyphBytes : Nat := 5

/-- `PROGRAM_BASE`: first byte of the program image and the reset value of `PC`. -/
abbrev programBase : Nat := 0x200

/-- `PROGRAM_MAX`: the longest program image, in bytes. -/
abbrev programMax : Nat := 3584

/-- `STACK_DEPTH`: how many return addresses the call stack holds. -/
abbrev stackDepth : Nat := 16

/-- What an unknown opcode does: the two policies 60_exceptions.md R269 quotes from the document. -/
inductive UnknownOpcodePolicy where
  | halt
  | skip
  deriving DecidableEq, Repr

/-- `UNKNOWN_OPCODE_POLICY = halt` (R4, R269; the spec's decision D3).
DESIGN CHOICE of the spec, safe; log 7. -/
def unknownOpcodePolicy : UnknownOpcodePolicy := .halt

/-- `MEMOP_I_ADVANCE = 0`: `FX55` and `FX65` leave `I` unchanged (R4, 43_index_memory.md R194; D4).
DESIGN CHOICE of the spec, unsafe; log 8. -/
def memopIAdvance : Bool := false

/-- Which key `FX0A` reports when several are down: the one policy the spec names. -/
inductive KeywaitPick where
  | lowest
  deriving DecidableEq, Repr

/-- `KEYWAIT_PICK = lowest` (R4, 45_keypad_timers.md R232; D8). DESIGN CHOICE of the spec, unsafe; log 12. -/
def keywaitPick : KeywaitPick := .lowest

/-- `RND`: the byte the random source gives the `n`-th execution of `CXNN` (42_alu.md R171, 60_exceptions.md R265).
A FREE VALUE: it has no body, so nothing can be proved of it, and every claim holds for every random source.
DESIGN CHOICE, safe; log 1. -/
opaque randomByte : Nat → Byte

/-- The order of events the environment chooses: its `n`-th choice of what happens next, a `Step`, a `Tick` or an event of
the host (00_scope.md R5, 60_exceptions.md R258, R261). A FREE VALUE: it has no body, so any number of `Tick`s may fall
between two `Step`s, and every claim holds for every interleaving. DESIGN CHOICE, safe; log 3. -/
opaque environment : Nat → Machine.Event

end Sys2Proof.Config
end

