-- ==== Sys2Proof/Machine/Glyphs.lean ====
section
/-! DEFINITION. The built-in glyph table and the reset contents of memory (20_memory.md R62). -/

namespace Sys2Proof.Machine

/-- `GLYPH`: the 80 bytes of R62, glyph `n` at `5*n`. Bytes 0 and 1 are the document's; the other 78 are the spec's
own general knowledge (92_eei_decisions.md D10). PRESUMED by the spec, unsafe; log 5. -/
def glyphTable : List Byte :=
  [0xF0, 0x90, 0x90, 0x90, 0xF0] ++ [0x20, 0x60, 0x20, 0x20, 0x70] ++
  [0xF0, 0x10, 0xF0, 0x80, 0xF0] ++ [0xF0, 0x10, 0xF0, 0x10, 0xF0] ++
  [0x90, 0x90, 0xF0, 0x10, 0x10] ++ [0xF0, 0x80, 0xF0, 0x10, 0xF0] ++
  [0xF0, 0x80, 0xF0, 0x90, 0xF0] ++ [0xF0, 0x10, 0x20, 0x40, 0x40] ++
  [0xF0, 0x90, 0xF0, 0x90, 0xF0] ++ [0xF0, 0x90, 0xF0, 0x10, 0xF0] ++
  [0xF0, 0x90, 0xF0, 0x90, 0x90] ++ [0xE0, 0x90, 0xE0, 0x90, 0xE0] ++
  [0xF0, 0x80, 0x80, 0x80, 0xF0] ++ [0xE0, 0x90, 0x90, 0x90, 0xE0] ++
  [0xF0, 0x80, 0xF0, 0x80, 0xF0] ++ [0xF0, 0x80, 0xF0, 0x80, 0x80]

/-- What a memory byte holds after a reset with an empty program image, and so what an address that memory does not
list reads as: the glyph table at `0x000..0x04F` and 0 everywhere else (R62, 10_state.md R37). -/
def resetByte (a : Nat) : Byte :=
  glyphTable.getD a 0

end Sys2Proof.Machine
end

