-- ==== Sys2Proof/Machine/State.lean ====
section
/-! DEFINITION. The state of the engine (10_state.md R20 to R34) and its reset value (R37). -/

namespace Sys2Proof.Machine

/-- The run states (10_state.md R32). -/
inductive Mode where
  | running
  | waitingForKey
  | halted
  deriving DecidableEq, Repr

/-- The kinds of fatal error (60_exceptions.md R250). -/
inductive FaultKind where
  | outOfRangeMemoryAccess
  /-- Reserved: no rule raises it (R251, 90_conflicts.md C10). -/
  | invalidRegisterIndex
  | stackOverflow
  | stackUnderflow
  | unknownOpcode
  | keyIndexOutOfRange
  deriving DecidableEq, Repr

/-- The fault record (10_state.md R33, 60_exceptions.md R252). -/
structure FaultRecord where
  kind   : FaultKind
  opcode : Word
  pc     : Word
  info   : Word
  deriving DecidableEq, Repr

/-- Memory: (address, byte) pairs, addresses strictly rising, no byte equal to what its address reads as when it is
not listed (`resetByte`). -/
abbrev Memory := List Host.Cell

/-- The whole state. -/
structure State where
  /-- `V0..VF`; `VF` is the flag register (10_state.md R20, R21). -/
  v      : Vector Byte 16
  /-- Index register `I` (R22). -/
  i      : Word
  /-- Program counter (R23). -/
  pc     : Word
  /-- The call stack's sixteen entries (R24). -/
  stack  : Vector Word 16
  /-- The stack pointer, `0..16` (R25). -/
  sp     : Fin 17
  /-- Delay timer (R26). -/
  dt     : Byte
  /-- Sound timer (R27). -/
  st     : Byte
  /-- The 4096 bytes of memory (R28). -/
  mem    : Memory
  /-- The sixteen key flags (R29). -/
  key    : Vector Bool 16
  /-- The frame buffer: bit `x` of row `y` is the cell `fb[x + 64*y]` (R30). -/
  fb     : Vector (BitVec 64) 32
  /-- The dirty flag (R31). -/
  dirty  : Bool
  /-- The engine mode (R32). -/
  mode   : Mode
  /-- The fault record (R33). -/
  fault  : Option FaultRecord
  /-- The model's own: how many bytes `CXNN` has drawn, the index of the next free byte.
  DESIGN CHOICE, safe; log 2. -/
  draws  : Nat
  /-- The model's own: the events already lined up, oldest first; when it is empty the environment chooses the next event
  freely. DESIGN CHOICE, safe; log 3. -/
  agenda : List Event
  /-- The model's own: how many events the environment has chosen freely, the index of its next choice.
  DESIGN CHOICE, safe; log 32. -/
  turns  : Nat
  deriving DecidableEq, Repr

/-- Why a step could stop the machine without a next state. It has NO constructor: every fatal error of this hardware
is an exception whose entry the spec describes (the record is loaded and the mode becomes `Halted`,
60_exceptions.md R253, R255), so it is a next state, and no behaviour is stuck (93_implementation_defined.md
section 1). DEDUCED, safe; log 23. -/
inductive Fault where
  deriving DecidableEq, Repr

/-- Why a step could have no meaning. -/
inductive Refusal where
  /-- An instruction with no meaning yet: no arm answers it any more. Safe. -/
  | notModelled (mnemonic : String)
  /-- Raised by the event `reset rom` for an image longer than 3584 bytes, for which Reset is not defined
  (60_exceptions.md R270, 93_implementation_defined.md U10). Safe; log 27. -/
  | imageTooLong
  deriving DecidableEq, Repr

/-- The state right after `Reset` with an empty program image (10_state.md R37, 70_reset_and_hazards.md R290). `draws`,
`agenda` and `turns` are the model's own: DESIGN CHOICE, log 2, log 3 and log 32. -/
def State.reset : State where
  v      := Vector.replicate 16 0
  i      := 0
  pc     := BitVec.ofNat 16 Config.programBase
  stack  := Vector.replicate 16 0
  sp     := 0
  dt     := 0
  st     := 0
  mem    := []
  key    := Vector.replicate 16 false
  fb     := Vector.replicate 32 0
  dirty  := false
  mode   := .running
  fault  := none
  draws  := 0
  agenda := []
  turns  := 0

end Sys2Proof.Machine
end

