-- ==== Sys2Proof/Machine/Ops.lean ====
section
/-! DEFINITION. The named operations over registers, memory, the stack, the frame buffer and the keys (00_scope.md
R8), and taking a fault (R9). -/

namespace Sys2Proof.Machine

/-- What a meaning answers. -/
abbrev Result := Host.Outcome State Fault Refusal

/-! ## Codes of the control registers -/

/-- The 2-bit encoding of `mode` (10_state.md R32). DESIGN CHOICE of the spec (D20), safe; log 10. -/
def Mode.code : Mode → BitVec 2
  | .running => 0
  | .waitingForKey => 1
  | .halted => 2

/-- The 3-bit cause codes (60_exceptions.md R250). DESIGN CHOICE of the spec (D6), safe; log 10. -/
def FaultKind.code : FaultKind → BitVec 3
  | .outOfRangeMemoryAccess => 1
  | .invalidRegisterIndex => 2
  | .stackOverflow => 3
  | .stackUnderflow => 4
  | .unknownOpcode => 5
  | .keyIndexOutOfRange => 6

/-! ## General registers -/

/-- Read `V[r]` (10_state.md R20). -/
def getV (s : State) (r : Reg) : Byte := s.v[r.toNat]'r.isLt

/-- `V[r] <- b` (R20). No register is hardwired. -/
def setV (s : State) (r : Reg) (b : Byte) : State :=
  { s with v := s.v.set r.toNat b r.isLt }

/-- The index of `VF`. -/
def regVF : Reg := 0xF

/-- Write a result to `V[x]` and then the flag to `VF`, so that with `x = 0xF` the flag is what stays
(40_step_cycle.md R127). DESIGN CHOICE of the spec (D2) but for `8XY4`, unsafe; log 6. -/
def setVAndFlag (s : State) (x : Reg) (b flag : Byte) : State :=
  setV (setV s x b) regVF flag

/-- Write consecutive registers from `V[k]` up, one byte each (`FX65`, 43_index_memory.md R195). -/
def loadRegs (s : State) (k : Nat) : List Byte → State
  | [] => s
  | b :: bs => loadRegs (setV s (BitVec.ofNat 4 k) b) (k + 1) bs

/-! ## Other registers -/

/-- `I <- n`, kept modulo 65536 (10_state.md R22). -/
def setI (s : State) (n : Nat) : State := { s with i := BitVec.ofNat 16 n }

/-- `DT <- b` (R26). -/
def setDt (s : State) (b : Byte) : State := { s with dt := b }

/-- `ST <- b` (R27). -/
def setSt (s : State) (b : Byte) : State := { s with st := b }

/-- An instruction completes: `PC <- t`, kept modulo 65536 (00_scope.md R8), and the mode is `Running`
(40_step_cycle.md R125). -/
def complete (s : State) (t : Nat) : State :=
  { s with pc := BitVec.ofNat 16 t, mode := .running }

/-- An instruction completes with `PC <- pc + 2` (40_step_cycle.md R124). -/
def completeNext (s : State) : State := complete s (s.pc.toNat + 2)

/-- `FX0A` found no key: `mode <- WaitingForKey`, nothing else (R125, 45_keypad_timers.md R232). -/
def waitForKey (s : State) : State := { s with mode := .waitingForKey }

/-- The idle word: `mode <- Running`, nothing else (40_step_cycle.md R122). -/
def idleState (s : State) : State := { s with mode := .running }

/-! ## Taking a fault -/

/-- `raise Fault(kind, info)`: the record is loaded, `mode <- Halted`, and every write of the instruction is discarded,
`PC` still addressing it (00_scope.md R9; 60_exceptions.md R252, R253, R255; D5, D17). There is no return from a fault
(R256). DESIGN CHOICE of the spec (precise faults), unsafe; log 9. -/
def raiseFault (s : State) (kind : FaultKind) (opcode : Word) (info : Nat) : State :=
  { s with
    fault := some { kind := kind, opcode := opcode, pc := s.pc, info := BitVec.ofNat 16 info }
    mode := .halted }

/-- An unknown opcode: `Fault(UnknownOpcode, 0)` under the policy `halt` (60_exceptions.md R269). The policy `skip` would
be `PC <- pc + 2` (93_implementation_defined.md U1); this hardware does not choose it. Log 7, log 30. -/
def unknownOpcode (s : State) (w : Word) : State :=
  match Config.unknownOpcodePolicy with
  | .halt => raiseFault s .unknownOpcode w 0
  | .skip => completeNext s

/-! ## Memory -/

/-- Canonical form: addresses strictly rising, no listed byte equal to what its address reads as unlisted. -/
abbrev Memory.wf (m : Memory) : Prop :=
  (m.map Prod.fst).Pairwise (· < ·) ∧ ∀ c ∈ m, c.2 ≠ resetByte c.1

/-- `MemRead(a, 1)` for an address already checked (00_scope.md R8, 20_memory.md R69). -/
def Memory.read : Memory → Nat → Byte
  | [], a => resetByte a
  | c :: m, a => if c.1 = a then c.2 else Memory.read m a

/-- `MemWrite(a, 1, b)` for an address already checked (R8, R69): inserted in order, or taken out when `b` is what the
address reads as unlisted. -/
def Memory.write : Memory → Nat → Byte → Memory
  | [], a, b => if b = resetByte a then [] else [(a, b)]
  | c :: m, a, b =>
    if a < c.1 then
      if b = resetByte a then c :: m else (a, b) :: c :: m
    else if a = c.1 then
      if b = resetByte a then m else (a, b) :: m
    else c :: Memory.write m a b

/-- Write bytes at ascending addresses from `a` (20_memory.md R68, R70). -/
def Memory.writeBytes (m : Memory) (a : Nat) : List Byte → Memory
  | [] => m
  | b :: bs => Memory.writeBytes (Memory.write m a b) (a + 1) bs

/-- Read `n` bytes at ascending addresses from `a` (R68). -/
def Memory.readBytes (m : Memory) (a : Nat) : Nat → List Byte
  | 0 => []
  | n + 1 => Memory.read m a :: Memory.readBytes m (a + 1) n

/-- `MemRead(a, 2)`: the big-endian word at `a` (00_scope.md R8, 20_memory.md R66). -/
def Memory.readWord (m : Memory) (a : Nat) : Word :=
  wordOfBytes (Memory.read m a) (Memory.read m (a + 1))

/-- `MemWrite(a, 2, w)`, the document's `writeWordBigEndian`: high byte at `a`, low byte at `a + 1` (R66, R78). No
instruction uses it, only the host. -/
def Memory.writeWord (m : Memory) (a : Nat) (w : Word) : Memory :=
  Memory.writeBytes m a (bytesOfWord w)

/-- The lowest offending address of an access to the `len` bytes from `base`, if one of them is above 4095: all are
checked before any is touched, in unbounded arithmetic (20_memory.md R63, R77). DESIGN CHOICE of the spec (D5, D25);
log 9, log 20. -/
def outOfRange (base len : Nat) : Option Nat :=
  if len = 0 ∨ base + len ≤ Config.memSize then none else some (max Config.memSize base)

/-- An instruction that touches the `len` bytes from `base`: the fault when one is out of range, else the completed
state `t` (R77). The record's opcode is the instruction's own word (log 24). -/
def withRange (s : State) (i : Instr) (base len : Nat) (t : State) : Result :=
  match outOfRange base len with
  | some a => .next (raiseFault s .outOfRangeMemoryAccess (encode i) a)
  | none => .next t

/-- Replace the memory. -/
def setMem (s : State) (m : Memory) : State := { s with mem := m }

/-! ## Call stack -/

/-- Push `PC`, store then increment; none when the stack is full (10_state.md R24, R25). -/
def pushPc (s : State) : Option State :=
  if h : s.sp.val < 16 then
    some { s with stack := s.stack.set s.sp.val s.pc h, sp := ⟨s.sp.val + 1, by omega⟩ }
  else none

/-- Pop, decrement then load; none when the stack is empty. The entry keeps its contents (R24, R25). -/
def popPc (s : State) : Option (Word × State) :=
  if h : 0 < s.sp.val then
    some (s.stack[s.sp.val - 1]'(by omega), { s with sp := ⟨s.sp.val - 1, by omega⟩ })
  else none

/-! ## Frame buffer -/

/-- The cell in column `x`, row `y` (10_state.md R30). -/
def pixel (fb : Vector (BitVec 64) 32) (x : Fin 64) (y : Fin 32) : Bool :=
  fb[y.val].getLsbD x.val

/-- XOR one cell with 1 (44_display.md R211). -/
def flipPixel (fb : Vector (BitVec 64) 32) (x : Fin 64) (y : Fin 32) : Vector (BitVec 64) 32 :=
  fb.set y.val (fb[y.val] ^^^ BitVec.twoPow 64 x.val)

/-- A frame buffer with every cell 0 (R210). -/
def blankScreen : Vector (BitVec 64) 32 := Vector.replicate 32 0

/-- Replace the frame buffer and raise the dirty flag (10_state.md R31). -/
def setScreen (s : State) (fb : Vector (BitVec 64) 32) : State :=
  { s with fb := fb, dirty := true }

/-! ## Keys and the random source -/

/-- Is key `k` down (10_state.md R29)? -/
def keyDown (s : State) (k : Reg) : Bool := s.key[k.toNat]'k.isLt

/-- Draw one random byte, a free value, and advance the counter of draws (42_alu.md R171). Log 1. -/
def drawByte (s : State) : Byte × State :=
  (Config.randomByte s.draws, { s with draws := s.draws + 1 })

end Sys2Proof.Machine
end

