-- ==== Sys2Proof/Machine/Flags.lean ====
section
/-! DEFINITION. The flag values (10_state.md R21): every flag-writing instruction stores exactly 0 or 1 in `VF`. -/

namespace Sys2Proof.Machine

/-- A flag as the byte stored in `VF` (R21). -/
def flagByte (b : Bool) : Byte := if b then 1 else 0

/-- Carry of `8XY4`: 1 if the unmasked sum exceeds 255 (42_alu.md R166). -/
def carryFlag (a b : Byte) : Byte := flagByte (decide (a.toNat + b.toNat > 255))

/-- Not-borrow of `8XY5` and `8XY7`: 0 if the exact difference `a - b` is negative, else 1 (R167, R169). -/
def notBorrowFlag (a b : Byte) : Byte := flagByte (!decide ((a.toNat : Int) - (b.toNat : Int) < 0))

/-- The bit `8XY6` shifts out: bit 0 of the value before the shift (R168). -/
def shiftedOutLow (a : Byte) : Byte := BitVec.ofNat 8 (a.toNat % 2)

/-- The bit `8XYE` shifts out: bit 7 of the value before the shift (R170). -/
def shiftedOutHigh (a : Byte) : Byte := BitVec.ofNat 8 (a.toNat / 128)

/-- Collision of `DXYN`: 1 if some pixel went from 1 to 0 (44_display.md R211). -/
def collisionFlag (hit : Bool) : Byte := flagByte hit

end Sys2Proof.Machine
end

