-- ==== Sys2Proof/Machine/Operands.lean ====
section
/-! DEFINITION. The operand forms: targets, skips, addresses, register ranges, digits, sprites, key indices. -/

namespace Sys2Proof.Machine

/-! ## Control transfer -/

/-- The target of `1NNN` and `2NNN` (41_control_flow.md R141, R142). -/
def jumpTarget (nnn : Addr) : Nat := nnn.toNat

/-- The target of `BNNN`: `NNN + V[0]`, not reduced (R147). DESIGN CHOICE of the spec (D1, D25), safe; log 20. -/
def indexedTarget (s : State) (nnn : Addr) : Nat := nnn.toNat + (getV s 0).toNat

/-- The target of a skip: `pc + 4` when the condition holds, else `pc + 2` (40_step_cycle.md R124). -/
def skipTarget (s : State) (taken : Bool) : Nat :=
  if taken then s.pc.toNat + 4 else s.pc.toNat + 2

/-! ## Memory operands: `I` plus a small offset (43_index_memory.md, preamble) -/

/-- The base address of `DXYN`, `FX33`, `FX55`, `FX65`. -/
def memBase (s : State) : Nat := s.i.toNat

/-- How many registers `V[0]..V[X]` holds, `X` included (R194, R195). -/
def regCount (x : Reg) : Nat := x.toNat + 1

/-- The bytes of `V[0]..V[X]`, `V[0]` first (R194). -/
def regRange (s : State) (x : Reg) : List Byte :=
  (List.range (regCount x)).map fun k => getV s (BitVec.ofNat 4 k)

/-- `I` after `FX55` or `FX65`: unchanged, since `MEMOP_I_ADVANCE` is 0 (R194, R195). DESIGN CHOICE of the spec (D4),
unsafe; log 8. -/
def indexAfterMemop (s : State) (x : Reg) : Nat :=
  if Config.memopIAdvance then s.i.toNat + regCount x else s.i.toNat

/-- The address of glyph `v`: five times the whole byte (R192). -/
def glyphAddress (v : Byte) : Nat := Config.glyphBytes * v.toNat

/-- The decimal digits of a byte, hundreds first, one byte each (R193). -/
def bcdDigits (v : Byte) : List Byte :=
  [BitVec.ofNat 8 (v.toNat / 100), BitVec.ofNat 8 (v.toNat / 10 % 10), BitVec.ofNat 8 (v.toNat % 10)]

/-! ## Sprites -/

/-- The cells that the set bits of one sprite row address, `bit_offset` ascending: bit `7 - k` of the byte is offset `k`,
both coordinates wrap (44_display.md R211, R212). DESIGN CHOICE of the spec (D11, the bit order), unsafe; log 14. -/
def rowCells (x0 y0 row : Nat) (b : Byte) : List (Fin 64 × Fin 32) :=
  ((List.range 8).filter fun k => b.getLsbD (7 - k)).map fun k =>
    (Fin.ofNat 64 (x0 + k), Fin.ofNat 32 (y0 + row))

/-- The cells that a sprite's set bits address, its rows from number `row` on in ascending order (R211). -/
def spriteCells (x0 y0 row : Nat) : List Byte → List (Fin 64 × Fin 32)
  | [] => []
  | b :: bs => rowCells x0 y0 row b ++ spriteCells x0 y0 (row + 1) bs

/-- The blitter: XOR each cell with 1, and say whether one that was on turned off (R211). -/
def blit (fb : Vector (BitVec 64) 32) (hit : Bool) : List (Fin 64 × Fin 32) → Vector (BitVec 64) 32 × Bool
  | [] => (fb, hit)
  | c :: cs => blit (flipPixel fb c.1 c.2) (hit || pixel fb c.1 c.2) cs

/-! ## Keys -/

/-- The key that `EX9E` and `EXA1` name: `V[X]`, none above 15 (45_keypad_timers.md R230). -/
def keyOperand (s : State) (x : Reg) : Option Reg :=
  if (getV s x).toNat > 15 then none else some (BitVec.ofNat 4 (getV s x).toNat)

/-- The key indices in ascending order. -/
def keyIndices : List Reg := (List.range 16).map (BitVec.ofNat 4)

/-- The key `FX0A` reports, none when no key is down: the least index down (R232). DESIGN CHOICE of the spec (D8),
unsafe; log 12. -/
def pressedKey (s : State) : Option Reg :=
  match Config.keywaitPick with
  | .lowest => keyIndices.find? (keyDown s)

end Sys2Proof.Machine
end

