-- ==== Sys2Proof/Machine/Alu.lean ====
section
/-! DEFINITION. Register and ALU instructions (42_alu.md R160 to R172). Operands are read from the state `s` before any
write, and a flag is written after the result (40_step_cycle.md R127). None of them faults. -/

namespace Sys2Proof.Machine

/-- `LDI` (R160). -/
def execLdi (x : Reg) (nn : Byte) (s : State) : Result :=
  .next (completeNext (setV s x nn))

/-- `ADDI` (R161): the sum modulo 256, no flag. -/
def execAddi (x : Reg) (nn : Byte) (s : State) : Result :=
  .next (completeNext (setV s x (BitVec.ofNat 8 ((getV s x).toNat + nn.toNat))))

/-- `MOV` (R162). -/
def execMov (x y : Reg) (s : State) : Result :=
  .next (completeNext (setV s x (getV s y)))

/-- `OR` (R163): no flag. -/
def execOr (x y : Reg) (s : State) : Result :=
  .next (completeNext (setV s x (getV s x ||| getV s y)))

/-- `AND` (R164): no flag. -/
def execAnd (x y : Reg) (s : State) : Result :=
  .next (completeNext (setV s x (getV s x &&& getV s y)))

/-- `XOR` (R165): no flag. -/
def execXor (x y : Reg) (s : State) : Result :=
  .next (completeNext (setV s x (getV s x ^^^ getV s y)))

/-- `ADD` (R166): the sum modulo 256, then the carry. -/
def execAdd (x y : Reg) (s : State) : Result :=
  .next (completeNext (setVAndFlag s x
    (BitVec.ofNat 8 ((getV s x).toNat + (getV s y).toNat)) (carryFlag (getV s x) (getV s y))))

/-- The difference `a - b` over the integers, kept modulo 256 (R167, R172). -/
def differenceByte (a b : Byte) : Byte := BitVec.ofInt 8 ((a.toNat : Int) - (b.toNat : Int))

/-- `SUB` (R167): `V[X] - V[Y]`, then not-borrow. -/
def execSub (x y : Reg) (s : State) : Result :=
  .next (completeNext (setVAndFlag s x
    (differenceByte (getV s x) (getV s y)) (notBorrowFlag (getV s x) (getV s y))))

/-- `SHR` (R168): `V[X] div 2`, then the bit shifted out; `V[Y]` is not used. -/
def execShr (x _y : Reg) (s : State) : Result :=
  .next (completeNext (setVAndFlag s x
    (BitVec.ofNat 8 ((getV s x).toNat / 2)) (shiftedOutLow (getV s x))))

/-- `SUBN` (R169): `V[Y] - V[X]`, then not-borrow. -/
def execSubn (x y : Reg) (s : State) : Result :=
  .next (completeNext (setVAndFlag s x
    (differenceByte (getV s y) (getV s x)) (notBorrowFlag (getV s y) (getV s x))))

/-- `SHL` (R170): `2 * V[X]` modulo 256, then the bit shifted out; `V[Y]` is not used. -/
def execShl (x _y : Reg) (s : State) : Result :=
  .next (completeNext (setVAndFlag s x
    (BitVec.ofNat 8 ((getV s x).toNat * 2)) (shiftedOutHigh (getV s x))))

/-- `RND` (R171): a fresh random byte, a free value, AND `NN`. Log 1. -/
def execRnd (x : Reg) (nn : Byte) (s : State) : Result :=
  match drawByte s with
  | (r, t) => .next (completeNext (setV t x (r &&& nn)))

end Sys2Proof.Machine
end

