-- ==== Sys2Proof/Machine/Control.lean ====
section
/-! DEFINITION. Control transfer (41_control_flow.md R140 to R147) and the idle word (40_step_cycle.md R122). In each
meaning `pc` is the address of the instruction itself (10_state.md R23). -/

namespace Sys2Proof.Machine

/-- `IDLE` (R122): `mode <- Running`, nothing else; `PC` does not advance. -/
def execIdle (s : State) : Result :=
  .next (idleState s)

/-- `RET` (R140): `StackUnderflow` when `SP = 0`, else pop and resume two bytes after the call. -/
def execRet (s : State) : Result :=
  match popPc s with
  | some (a, t) => .next (complete t (a.toNat + 2))
  | none => .next (raiseFault s .stackUnderflow (encode .ret) s.sp.val)

/-- `JP` (R141). -/
def execJp (nnn : Addr) (s : State) : Result :=
  .next (complete s (jumpTarget nnn))

/-- `CALL` (R142): `StackOverflow` when `SP = 16`, else push the address of the call itself and jump. -/
def execCall (nnn : Addr) (s : State) : Result :=
  match pushPc s with
  | some t => .next (complete t (jumpTarget nnn))
  | none => .next (raiseFault s .stackOverflow (encode (.call nnn)) s.sp.val)

/-- `SEI` (R143). -/
def execSei (x : Reg) (nn : Byte) (s : State) : Result :=
  .next (complete s (skipTarget s (getV s x == nn)))

/-- `SNEI` (R144). -/
def execSnei (x : Reg) (nn : Byte) (s : State) : Result :=
  .next (complete s (skipTarget s (getV s x != nn)))

/-- `SER` (R145). -/
def execSer (x y : Reg) (s : State) : Result :=
  .next (complete s (skipTarget s (getV s x == getV s y)))

/-- `SNER` (R146). -/
def execSner (x y : Reg) (s : State) : Result :=
  .next (complete s (skipTarget s (getV s x != getV s y)))

/-- `JPV0` (R147): the target is not checked here. -/
def execJpv0 (nnn : Addr) (s : State) : Result :=
  .next (complete s (indexedTarget s nnn))

end Sys2Proof.Machine
end

