-- ==== Sys2Proof/Machine/Display.lean ====
section
/-! DEFINITION. Display instructions and the sprite blitter (44_display.md R210 to R213). -/

namespace Sys2Proof.Machine

/-- `CLS` (R210): every cell 0, `dirty <- 1`, `VF` unchanged. -/
def execCls (s : State) : Result :=
  .next (completeNext (setScreen s blankScreen))

/-- The cells that the set bits of `DXYN`'s sprite address, in the state before the draw (R211). -/
def drawnCells (s : State) (x y : Reg) (n : Nibble) : List (Fin 64 × Fin 32) :=
  spriteCells (getV s x).toNat (getV s y).toNat 0 (Memory.readBytes s.mem (memBase s) n.toNat)

/-- `DRW` (R211): XOR the sprite into the frame buffer, `VF` the collision, `dirty <- 1`. With `N = 0` no byte is read
and no fault is possible. -/
def execDrw (x y : Reg) (n : Nibble) (s : State) : Result :=
  withRange s (.drw x y n) (memBase s) n.toNat
    (match blit s.fb false (drawnCells s x y n) with
     | (fb, hit) => completeNext (setV (setScreen s fb) regVF (collisionFlag hit)))

end Sys2Proof.Machine
end

