-- ==== Sys2Proof/Machine/IndexMemory.lean ====
section
/-! DEFINITION. Index register and memory instructions (43_index_memory.md R190 to R195). All addresses are checked
before any access (20_memory.md R77). -/

namespace Sys2Proof.Machine

/-- `LDIX` (R190). -/
def execLdix (nnn : Addr) (s : State) : Result :=
  .next (completeNext (setI s nnn.toNat))

/-- `ADDIX` (R191): modulo 65536, no flag, no fault. -/
def execAddix (x : Reg) (s : State) : Result :=
  .next (completeNext (setI s (s.i.toNat + (getV s x).toNat)))

/-- `FONT` (R192): the whole byte is multiplied; no memory is read. -/
def execFont (x : Reg) (s : State) : Result :=
  .next (completeNext (setI s (glyphAddress (getV s x))))

/-- `BCD` (R193): three digits from `I` up, `I` unchanged. -/
def execBcd (x : Reg) (s : State) : Result :=
  withRange s (.bcd x) (memBase s) 3
    (completeNext (setMem s (Memory.writeBytes s.mem (memBase s) (bcdDigits (getV s x)))))

/-- `STM` (R194): `V[0]..V[X]` to memory from `I` up. -/
def execStm (x : Reg) (s : State) : Result :=
  withRange s (.stm x) (memBase s) (regCount x)
    (completeNext (setI (setMem s (Memory.writeBytes s.mem (memBase s) (regRange s x))) (indexAfterMemop s x)))

/-- `LDM` (R195): memory from `I` up to `V[0]..V[X]`. -/
def execLdm (x : Reg) (s : State) : Result :=
  withRange s (.ldm x) (memBase s) (regCount x)
    (completeNext (setI (loadRegs s 0 (Memory.readBytes s.mem (memBase s) (regCount x))) (indexAfterMemop s x)))

end Sys2Proof.Machine
end

