-- ==== Sys2Proof/Machine/Keypad.lean ====
section
/-! DEFINITION. Keypad and timer instructions (45_keypad_timers.md R230 to R235). -/

namespace Sys2Proof.Machine

/-- `SKP` (R230): `KeyIndexOutOfRange` when `V[X] > 15`, else skip if the key is down. The fault is the spec's own
choice (D7), safe; log 11. -/
def execSkp (x : Reg) (s : State) : Result :=
  match keyOperand s x with
  | some k => .next (complete s (skipTarget s (keyDown s k)))
  | none => .next (raiseFault s .keyIndexOutOfRange (encode (.skp x)) (getV s x).toNat)

/-- `SKNP` (R231): as `SKP` with the condition negated. -/
def execSknp (x : Reg) (s : State) : Result :=
  match keyOperand s x with
  | some k => .next (complete s (skipTarget s (!keyDown s k)))
  | none => .next (raiseFault s .keyIndexOutOfRange (encode (.sknp x)) (getV s x).toNat)

/-- `WKEY` (R232): wait while no key is down, else the key's index to `V[X]`. Level-sensitive (D8), log 12. -/
def execWkey (x : Reg) (s : State) : Result :=
  match pressedKey s with
  | some k => .next (completeNext (setV s x (BitVec.ofNat 8 k.toNat)))
  | none => .next (waitForKey s)

/-- `LDDT` (R233). -/
def execLddt (x : Reg) (s : State) : Result :=
  .next (completeNext (setV s x s.dt))

/-- `STDT` (R234). -/
def execStdt (x : Reg) (s : State) : Result :=
  .next (completeNext (setDt s (getV s x)))

/-- `STST` (R235). -/
def execStst (x : Reg) (s : State) : Result :=
  .next (completeNext (setSt s (getV s x)))

end Sys2Proof.Machine
end

