-- ==== Sys2Proof/Machine/Engine.lean ====
section
/-! DEFINITION. The engine's `Step` event: mode test, fetch, decode, dispatch (40_step_cycle.md R120 to R126), and what a
`Step` reports (00_scope.md R10). -/

namespace Sys2Proof.Machine

/-- Fetch (R121): the big-endian word at `PC`, or the lowest offending address when one of its two bytes is out of range.
It has no side effect. -/
def fetch (s : State) : Except Nat Word :=
  match outOfRange s.pc.toNat 2 with
  | some a => .error a
  | none => .ok (Memory.readWord s.mem s.pc.toNat)

/-- The fetched word, decoded and performed (R122, R123): `0x0000` decodes to `IDLE`, an unknown word faults. -/
def performWord (s : State) (w : Word) : Result :=
  match decode w with
  | .ok i => exec i s
  | .error _ => .next (unknownOpcode s w)

/-- Fetch and perform. A fetch fault records the opcode `0x0000` (R121). -/
def fetchAndPerform (s : State) : Result :=
  match fetch s with
  | .ok w => performWord s w
  | .error a => .next (raiseFault s .outOfRangeMemoryAccess 0 a)

/-- The whole `Step` (R126). `Halted` is terminal (R120); `Running` and `WaitingForKey` are treated alike. -/
def engineStep (s : State) : Result :=
  match s.mode with
  | .halted => .next s
  | .running => fetchAndPerform s
  | .waitingForKey => fetchAndPerform s

/-! ## What a Step reports -/

/-- The step results (R10). DESIGN CHOICE of the spec (D21), safe; log 18. -/
inductive StepResult where
  | executed
  | waiting
  | idle
  | fault
  | halted
  deriving DecidableEq, Repr

/-- The outputs of one `Step`. -/
structure StepReport where
  result : StepResult
  drew   : Bool
  deriving DecidableEq, Repr

/-- Is it one of the two instructions that draw (R125)? -/
def drawsScreen (i : Instr) : Bool :=
  match i with
  | .cls | .drw _ _ _ => true
  | .idle | .ret | .jp _ | .call _ | .sei _ _ | .snei _ _ | .ser _ _ | .sner _ _ | .jpv0 _ => false
  | .ldi _ _ | .addi _ _ | .mov _ _ | .or _ _ | .and _ _ | .xor _ _ | .add _ _ | .sub _ _ => false
  | .shr _ _ | .subn _ _ | .shl _ _ | .rnd _ _ | .ldix _ | .addix _ | .font _ | .bcd _ | .stm _ | .ldm _ => false
  | .skp _ | .sknp _ | .lddt _ | .wkey _ | .stdt _ | .stst _ => false

/-- The report of a decoded instruction, read off the mode it leaves (R125); `IDLE` reports `Idle` (R122). -/
def reportOf (i : Instr) (after : Result) : StepReport :=
  match after with
  | .next t =>
    match t.mode with
    | .halted => ⟨.fault, false⟩
    | .waitingForKey => ⟨.waiting, false⟩
    | .running => if i = .idle then ⟨.idle, false⟩ else ⟨.executed, drawsScreen i⟩
  | .fault _ => ⟨.fault, false⟩
  | .refused _ => ⟨.fault, false⟩

/-- The report of an unknown word: `Fault` under the policy `halt` (R126); under `skip` it would be `Executed`
(93_implementation_defined.md U1). -/
def unknownReport : StepReport :=
  match Config.unknownOpcodePolicy with
  | .halt => ⟨.fault, false⟩
  | .skip => ⟨.executed, false⟩

/-- The report of a `Step` that fetches: a fetch fault, an unknown word, or a decoded instruction (R126). -/
def fetchReport (s : State) : StepReport :=
  match fetch s with
  | .error _ => ⟨.fault, false⟩
  | .ok w =>
    match decode w with
    | .ok i => reportOf i (exec i s)
    | .error _ => unknownReport

/-- What the `Step` taken in state `s` reports to the host (R10, R126): an output, not state. Log 18. -/
def stepReport (s : State) : StepReport :=
  match s.mode with
  | .halted => ⟨.halted, false⟩
  | .running => fetchReport s
  | .waitingForKey => fetchReport s

end Sys2Proof.Machine
end

