-- ==== Sys2Proof/Machine/Events.lean ====
section
/-! DEFINITION. The environment's events: `Tick`, `SetKeys`, `AckDirty`, `Reset` (60_exceptions.md R260 to R264;
70_reset_and_hazards.md R290 to R292), and the order of events (00_scope.md R5, 60_exceptions.md R261). -/

namespace Sys2Proof.Machine

/-- One less, floored at 0 (60_exceptions.md R260). -/
def countDown (b : Byte) : Byte := BitVec.ofNat 8 (b.toNat - 1)

/-- `Tick` (R260, R262): both timers count down; nothing happens in `Halted`. Freezing in `Halted` is a DESIGN CHOICE of
the spec (D13), unsafe; log 16. -/
def tick (s : State) : State :=
  match s.mode with
  | .halted => s
  | .running => { s with dt := countDown s.dt, st := countDown s.st }
  | .waitingForKey => { s with dt := countDown s.dt, st := countDown s.st }

/-- The sixteen flags of a 16-bit value: `key[i] <- k[i]` (R263). -/
def keyFlags (k : BitVec 16) : Vector Bool 16 :=
  #v[k.getLsbD 0, k.getLsbD 1, k.getLsbD 2, k.getLsbD 3, k.getLsbD 4, k.getLsbD 5, k.getLsbD 6, k.getLsbD 7,
     k.getLsbD 8, k.getLsbD 9, k.getLsbD 10, k.getLsbD 11, k.getLsbD 12, k.getLsbD 13, k.getLsbD 14, k.getLsbD 15]

/-- `SetKeys(k)` (R263): in any mode. -/
def setKeys (s : State) (k : BitVec 16) : State := { s with key := keyFlags k }

/-- `AckDirty` (R264): in any mode. -/
def ackDirty (s : State) : State := { s with dirty := false }

/-- Memory after a reset with the image `rom`: it stands verbatim from `0x200` up, over the reset contents (R292). -/
def imageMemory (rom : List Byte) : Memory := Memory.writeBytes [] Config.programBase rom

/-- `Reset(ROM)` (R290): every piece of the engine's state at its reset value, in any mode. The random source is not
seeded and the environment goes on as before. A longer image is refused. Log 2, log 3, log 27, log 32. -/
def resetEngine (s : State) (rom : List Byte) : Result :=
  if rom.length ≤ Config.programMax then
    .next { State.reset with mem := imageMemory rom, draws := s.draws, agenda := s.agenda, turns := s.turns }
  else .refused .imageTooLong

/-- One atomic event (00_scope.md R5). -/
def performEvent (s : State) : Event → Result
  | .step => engineStep s
  | .tick => .next (tick s)
  | .setKeys k => .next (setKeys s k)
  | .ackDirty => .next (ackDirty s)
  | .reset rom => resetEngine s rom

/-- An event as the environment may choose it: any event, an image being no longer than `PROGRAM_MAX`, since the host gives
no longer one (93_implementation_defined.md U10). Log 27. -/
def allowedEvent (e : Event) : Event :=
  match e with
  | .reset rom => .reset (rom.take Config.programMax)
  | .step => .step
  | .tick => .tick
  | .setKeys k => .setKeys k
  | .ackDirty => .ackDirty

/-- The next event in the total order of events: the oldest one lined up, or, when none is, whatever the environment
chooses, a free value (00_scope.md R5, 60_exceptions.md R258, R261). Log 3. -/
def upcoming (s : State) : Event :=
  match s.agenda with
  | [] => allowedEvent (Config.environment s.turns)
  | e :: _ => e

/-- The state with the next event taken off. Log 3, log 32. -/
def takeEvent (s : State) : State :=
  match s.agenda with
  | [] => { s with turns := s.turns + 1 }
  | _ :: rest => { s with agenda := rest }

/-- The next event, performed. -/
def nextEvent (s : State) : Result := performEvent (takeEvent s) (upcoming s)

/-! ## Placing an instruction where the next step fetches -/

/-- Where the next fetch can read a word: `PC` if both its bytes are in range, else the program base. -/
def fetchablePc (s : State) : Word :=
  if s.pc.toNat ≤ 0xFFE then s.pc else BitVec.ofNat 16 Config.programBase

/-- The state `s` with the word `w` where the next event fetches it: stored big-endian at `PC`, a halted engine running
again without a fault record, an unfetchable `PC` at the program base, and a `Step` lined up as the next event. Nothing
else changes. Log 29. -/
def placeWord (s : State) (w : Word) : State :=
  { s with
    pc := fetchablePc s
    mem := Memory.writeWord s.mem (fetchablePc s).toNat w
    mode := (match s.mode with
      | .halted => .running
      | .running => .running
      | .waitingForKey => .waitingForKey)
    fault := (match s.mode with
      | .halted => none
      | .running => s.fault
      | .waitingForKey => s.fault)
    agenda := .step :: s.agenda }

end Sys2Proof.Machine
end

