-- ==== Sys2Proof/Machine/Step.lean ====
section
/-! DEFINITION. One step of the machine: one atomic event. -/

namespace Sys2Proof.Machine

/-- The step: the oldest event lined up, or whatever the environment chooses when none is. -/
def step (s : State) : Host.Outcome State Fault Refusal := nextEvent s

/-- `s` with the opcode-table instruction `w` of `nbits` bits stored where `step` fetches its next instruction, so that
the very next step runs it. Log 4, log 29. -/
def State.withFetchWord (s : State) (nbits w : Nat) : State := placeWord s (tableWord nbits w)

end Sys2Proof.Machine
end

