-- ==== Sys2Proof/WellFormed.lean ====
section
/-! DEFINITION. Which 16-bit words are instructions. An `Instr` carries its operand ranges in its types, so the check
is on the WORD: the six classes of unknown words that 30_encoding.md R96 lists, one check each, written in digit
arithmetic and not from the decoder's masks, so that the decoder can be held against them. -/

namespace Sys2Proof

/-- R96 (a): `0x0001..0x0FFF` except `0x00E0` and `0x00EE`. -/
def unknownZero (w : Word) : Bool :=
  1 ≤ w.toNat && w.toNat ≤ 0x0FFF && w.toNat != 0x00E0 && w.toNat != 0x00EE

/-- R96 (b): `5XYn` with `n` not 0. -/
def unknownFive (w : Word) : Bool :=
  w.toNat / 4096 == 5 && w.toNat % 16 != 0

/-- R96 (c): `8XYn` with `n` in `8, 9, A, B, C, D, F`. -/
def unknownEight (w : Word) : Bool :=
  w.toNat / 4096 == 8 && [0x8, 0x9, 0xA, 0xB, 0xC, 0xD, 0xF].contains (w.toNat % 16)

/-- R96 (d): `9XYn` with `n` not 0. -/
def unknownNine (w : Word) : Bool :=
  w.toNat / 4096 == 9 && w.toNat % 16 != 0

/-- R96 (e): `EXkk` with `kk` neither `9E` nor `A1`. -/
def unknownE (w : Word) : Bool :=
  w.toNat / 4096 == 0xE && !([0x9E, 0xA1].contains (w.toNat % 256))

/-- R96 (f): `FXkk` with `kk` none of the nine defined low bytes. -/
def unknownF (w : Word) : Bool :=
  w.toNat / 4096 == 0xF &&
    !([0x07, 0x0A, 0x15, 0x18, 0x1E, 0x29, 0x33, 0x55, 0x65].contains (w.toNat % 256))

/-- The unknown opcodes: exactly R96 (a) to (f). -/
def unknownWord (w : Word) : Bool :=
  unknownZero w || unknownFive w || unknownEight w || unknownNine w || unknownE w || unknownF w

/-- A word that some row of the opcode map matches, `0x0000` among them (R95, R97). -/
def wellFormedWord (w : Word) : Bool :=
  !unknownWord w

end Sys2Proof
end

