-- ==== Sys2Proof/Safety.lean ====
section
/-! DEFINITION. The terms claims use: completing, frames, the table of faults, the invariant of the machine. -/

namespace Sys2Proof.Machine

/-! ## Encoding and completing -/

/-- The words `w` with `w AND mask = value` are exactly those that decode to the instruction `f w` (30_encoding.md
R94). -/
def RowDecodes (mask value : Word) (f : Word → Instr) : Prop :=
  ∀ w, w &&& mask = value ↔ decode w = .ok (f w)

/-- The instruction answers a next state in which the mode is `Running` (40_step_cycle.md R125), no fault is recorded
that was not there before, and `P` holds. -/
def Completes (i : Instr) (s : State) (P : State → Prop) : Prop :=
  ∃ t, exec i s = .next t ∧ t.mode = .running ∧ t.fault = s.fault ∧ P t

/-- `PC` holds `n` modulo 65536 (00_scope.md R8). -/
def PcIs (t : State) (n : Nat) : Prop := t.pc.toNat = n % 65536

/-- `s` with the fault taken: only `fault` and `mode` differ (60_exceptions.md R253). -/
def Faulted (s : State) (kind : FaultKind) (opcode : Word) (info : Nat) : State :=
  { s with
    mode := .halted
    fault := some ⟨kind, opcode, s.pc, BitVec.ofNat 16 info⟩ }

/-! ## Frames -/

/-- What an instruction may change, `PC`, the mode and the fault record apart. -/
structure Touched where
  regs   : Reg → Bool := fun _ => false
  index  : Bool := false
  stack  : Bool := false
  dt     : Bool := false
  st     : Bool := false
  screen : Bool := false
  draws  : Bool := false
  memory : Nat → Bool := fun _ => false

/-- Everything outside `w` is unchanged from `s` to `t`: registers, `I`, the stack, the timers, every byte of memory,
every pixel, the dirty flag, and always the keys and the environment's events. -/
def Frame (w : Touched) (s t : State) : Prop :=
  (∀ r, w.regs r = false → getV t r = getV s r) ∧
  (w.index = false → t.i = s.i) ∧
  (w.stack = false → t.stack = s.stack ∧ t.sp = s.sp) ∧
  (w.dt = false → t.dt = s.dt) ∧
  (w.st = false → t.st = s.st) ∧
  (w.screen = false → (∀ x y, pixel t.fb x y = pixel s.fb x y) ∧ t.dirty = s.dirty) ∧
  (w.draws = false → t.draws = s.draws) ∧
  (∀ a, w.memory a = false → Memory.read t.mem a = Memory.read s.mem a) ∧
  t.key = s.key ∧ t.agenda = s.agenda ∧ t.turns = s.turns

/-- Only register `x` may change. -/
def touchReg (x : Reg) : Touched := { regs := fun r => r == x }

/-- Only register `x` and `VF` may change. -/
def touchRegAndFlag (x : Reg) : Touched := { regs := fun r => r == x || r == 0xF }

/-- The `len` bytes from `base`. -/
def touchBytes (base len : Nat) : Touched := { memory := fun a => decide (base ≤ a ∧ a < base + len) }

/-- The write matrix of 10_state.md R38 read by instruction, with the flag writers of R21. `FX55` and `FX65` do not
touch `I` (D4). -/
def mayTouch (s : State) : Instr → Touched
  | .idle | .jp _ | .sei _ _ | .snei _ _ | .ser _ _ | .sner _ _ | .jpv0 _ | .skp _ | .sknp _ => {}
  | .cls => { screen := true }
  | .ret | .call _ => { stack := true }
  | .ldi x _ | .addi x _ | .mov x _ | .or x _ | .and x _ | .xor x _ | .lddt x | .wkey x => touchReg x
  | .add x _ | .sub x _ | .shr x _ | .subn x _ | .shl x _ => touchRegAndFlag x
  | .rnd x _ => { regs := fun r => r == x, draws := true }
  | .ldix _ | .addix _ | .font _ => { index := true }
  | .drw _ _ _ => { regs := fun r => r == 0xF, screen := true }
  | .stdt _ => { dt := true }
  | .stst _ => { st := true }
  | .bcd _ => touchBytes (memBase s) 3
  | .stm x => touchBytes (memBase s) (regCount x)
  | .ldm x => { regs := fun r => decide (r.toNat ≤ x.toNat) }

/-! ## Faults -/

/-- The fault an instruction raises, with its `info`: the table of 60_exceptions.md R250 and R251, none otherwise. -/
def causeOf (s : State) : Instr → Option (FaultKind × Nat)
  | .ret => if s.sp.val = 0 then some (.stackUnderflow, 0) else none
  | .call _ => if s.sp.val = 16 then some (.stackOverflow, 16) else none
  | .drw _ _ n =>
    if 0 < n.toNat ∧ s.i.toNat + n.toNat - 1 > 0xFFF then some (.outOfRangeMemoryAccess, max 4096 s.i.toNat) else none
  | .bcd _ => if s.i.toNat + 2 > 0xFFF then some (.outOfRangeMemoryAccess, max 4096 s.i.toNat) else none
  | .stm x => if s.i.toNat + x.toNat > 0xFFF then some (.outOfRangeMemoryAccess, max 4096 s.i.toNat) else none
  | .ldm x => if s.i.toNat + x.toNat > 0xFFF then some (.outOfRangeMemoryAccess, max 4096 s.i.toNat) else none
  | .skp x => if (getV s x).toNat > 15 then some (.keyIndexOutOfRange, (getV s x).toNat) else none
  | .sknp x => if (getV s x).toNat > 15 then some (.keyIndexOutOfRange, (getV s x).toNat) else none
  | .idle | .cls | .jp _ | .sei _ _ | .snei _ _ | .ser _ _ | .sner _ _ | .jpv0 _ => none
  | .ldi _ _ | .addi _ _ | .mov _ _ | .or _ _ | .and _ _ | .xor _ _ | .add _ _ | .sub _ _ | .shr _ _ => none
  | .subn _ _ | .shl _ _ | .rnd _ _ | .ldix _ | .addix _ | .font _ => none
  | .lddt _ | .wkey _ | .stdt _ | .stst _ => none

/-! ## Sprites -/

/-- Bit `k` of row `j` (0 the leftmost bit, row 0 the byte at `I`) of the sprite `DXYN` reads is set: bit `7 - k` of the
byte at `I + j` (44_display.md R212). -/
def spriteBit (s : State) (n : Nibble) (j k : Nat) : Prop :=
  j < n.toNat ∧ k < 8 ∧ (Memory.read s.mem (s.i.toNat + j)).getLsbD (7 - k) = true

/-- Some set bit of the sprite drawn at (`V[x]`, `V[y]`) lands on the cell in column `cx`, row `cy`: both coordinates
wrap (R211). -/
def spriteCovers (s : State) (x y : Reg) (n : Nibble) (cx : Fin 64) (cy : Fin 32) : Prop :=
  ∃ j k, spriteBit s n j k ∧
    ((getV s x).toNat + k) % 64 = cx.val ∧ ((getV s y).toNat + j) % 32 = cy.val

/-! ## The invariant -/

/-- Memory is canonical and lists only addresses of the 4096-byte space (20_memory.md R60). -/
def MemoryOk (s : State) : Prop := Memory.wf s.mem ∧ ∀ c ∈ s.mem, c.1 < 4096

/-- `PC` never passes the largest value it can reach (10_state.md R23). -/
def PcOk (s : State) : Prop := s.pc.toNat ≤ 0x10FE

/-- Every return address on the stack is the address of an instruction that was fetched (41_control_flow.md R140). -/
def StackOk (s : State) : Prop :=
  ∀ k : Fin 16, k.val < s.sp.val → (s.stack[k.val]).toNat ≤ 0xFFE

/-- A fault is recorded exactly in `Halted` (10_state.md R33), its `pc` is the `PC` the engine halted at (60_exceptions.md
R252), and its kind is not the reserved one (R251). -/
def FaultOk (s : State) : Prop :=
  (s.fault ≠ none ↔ s.mode = .halted) ∧
  ∀ r, s.fault = some r → r.pc = s.pc ∧ r.kind ≠ .invalidRegisterIndex

/-- The engine waits for a key only with `PC` at an `FX0A` (40_step_cycle.md R122, R125). -/
def WaitOk (s : State) : Prop :=
  s.mode = .waitingForKey → ∃ w x, fetch s = .ok w ∧ decode w = .ok (.wkey x)

/-- The invariant of the machine. -/
def EngineInv (s : State) : Prop := MemoryOk s ∧ PcOk s ∧ StackOk s ∧ FaultOk s ∧ WaitOk s

end Sys2Proof.Machine
end

