-- ==== Sys2Proof/Certificates/Slice0/Obligations.lean ====
section
/-! DEFINITION. The statements for the provers. Each docstring names the rule it formalises; a statement that rests on a
decision the spec marks as its own, or on the model's, says so. -/

open Sys2Proof Sys2Proof.Machine

/-! ## Encoding -/

/-- Words written out digit by digit from the encodings of 30_encoding.md R91 and R95 decode to their instructions, and
`0x5121` (low nibble of `5XY0` not 0) to none. -/
def Obligations.SpecWordsDecodeToTheirInstructions : Prop :=
  decode 0x0000 = .ok .idle ∧ decode 0x00EE = .ok .ret ∧ decode 0x1204 = .ok (.jp 0x204) ∧
  decode 0x611F = .ok (.ldi 1 0x1F) ∧ decode 0x8124 = .ok (.add 1 2) ∧ decode 0xA300 = .ok (.ldix 0x300) ∧
  decode 0xD015 = .ok (.drw 0 1 5) ∧ decode 0xE19E = .ok (.skp 1) ∧ decode 0xF333 = .ok (.bcd 3) ∧
  decode 0x5121 = .error (.unknownOpcode 0x5121)

/-- Every instruction, with every operand at every value its field admits, decodes from its own word (R90 to R95). -/
def Obligations.DecodingAnEncodedInstructionGivesItBack : Prop :=
  ∀ i : Instr, decode (encode i) = .ok i

/-- No bit of a word is dropped by the decoder: a word that decodes is the word of the instruction it decodes to (R91,
R95; the `Y` field of `SHR` and `SHL` is decoded, R98). -/
def Obligations.EncodingADecodedWordGivesItBack : Prop :=
  ∀ (w : Word) (i : Instr), decode w = .ok i → encode i = w

/-- The decoder refuses exactly the words of R96 (a) to (f), which `unknownWord` lists by their digits, and names the word
it refuses. Rests on the spec's decision D12 (every fixed digit is checked; log 15). -/
def Obligations.DecoderRefusesExactlyTheUnknownWords : Prop :=
  ∀ w : Word, (unknownWord w = true → decode w = .error (.unknownOpcode w)) ∧
    (unknownWord w = false → ∃ i, decode w = .ok i)

/-- The opcode map of R94 and R95: a word matches no two rows, and the row it matches is the one it decodes to. Rests on the
spec's decision D12 (log 15). -/
def Obligations.EachWordMatchesOnlyTheRowItDecodesTo : Prop :=
  ∀ w : Word,
    (∀ i, decode w = .ok i → w &&& (rowOf i).1 = (rowOf i).2) ∧
    (∀ j, w &&& (rowOf j).1 = (rowOf j).2 → ∃ i, decode w = .ok i ∧ rowOf i = rowOf j)

/-- The word write of 20_memory.md R66 and R78 puts the high byte at `a` and the low byte at `a + 1`, leaves every other
byte, and the word reads back, in a canonical memory. -/
def Obligations.WordWriteIsBigEndianAndReadsBack : Prop :=
  ∀ (m : Memory) (a : Nat) (w : Word), Memory.wf m →
    (Memory.read (Memory.writeWord m a w) a).toNat = w.toNat / 256 ∧
    (Memory.read (Memory.writeWord m a w) (a + 1)).toNat = w.toNat % 256 ∧
    (∀ q, q ≠ a → q ≠ a + 1 → Memory.read (Memory.writeWord m a w) q = Memory.read m q) ∧
    Memory.readWord (Memory.writeWord m a w) a = w ∧ Memory.wf (Memory.writeWord m a w)

/-- R90: an instruction is two bytes, the first being `op[15:8]`, and its successor follows it. -/
def Obligations.InstructionIsTwoBytesBigEndian : Prop :=
  (∀ (hi lo : Byte) (rest : List Byte) (w : Word), w.toNat = 256 * hi.toNat + lo.toNat →
    decodeBytes (hi :: lo :: rest) = (decode w).map fun i => (i, rest)) ∧
  ∀ bs : List Byte, bs.length < 2 → decodeBytes bs = .error .tooShort

/-! ## The step -/

/-- R121 (fetch) without its fault: with both bytes in range the fetch reads the word `256 * mem[pc] + mem[pc+1]`; out of
range it reports `max(4096, pc)`, which rests on D5 and D17 (log 9). -/
def Obligations.FetchReadsTheBigEndianWordAtPc : Prop :=
  ∀ s : State,
    (s.pc.toNat ≤ 0xFFE → ∃ w, fetch s = .ok w ∧
      w.toNat = 256 * (Memory.read s.mem s.pc.toNat).toNat + (Memory.read s.mem (s.pc.toNat + 1)).toNat) ∧
    (0xFFE < s.pc.toNat → fetch s = .error (max 4096 s.pc.toNat))

/-- A step runs the decoded instruction (40_step_cycle.md R121, R123): when the engine is not halted and the bytes at `PC`
decode to `i`, the event `Step` is `exec i`; so with a `Step` lined up as the next event `step` is `exec i` in the state
with that event taken off, and with nothing lined up it is so exactly when the environment chooses a `Step` (the line of
events is the model's own, log 3). -/
def Obligations.StepRunsTheDecodedInstruction : Prop :=
  ∀ (s : State) (w : Word) (i : Instr), s.mode ≠ .halted → s.pc.toNat ≤ 0xFFE →
    w.toNat = 256 * (Memory.read s.mem s.pc.toNat).toNat + (Memory.read s.mem (s.pc.toNat + 1)).toNat →
    decode w = .ok i →
    performEvent s .step = exec i s ∧
    (∀ rest, s.agenda = .step :: rest → step s = exec i { s with agenda := rest }) ∧
    (s.agenda = [] → step s =
      if Config.environment s.turns = .step then exec i { s with turns := s.turns + 1 }
      else performEvent { s with turns := s.turns + 1 } (allowedEvent (Config.environment s.turns)))

/-- 60_exceptions.md R261 and R258: the events come in any order. One that is lined up is the next step and is taken off;
with none lined up the next one is the environment's free choice, about which nothing is known, so a `Tick` may come
between any two `Step`s, from reset on; such a step always answers a next state; the limit on a choice rules out nothing
but an over-long image; and no event drops one lined up or a choice to come. The form is the model's own, log 3 and log 32;
the atomic `Tick` is the spec's decision D13 (log 16). -/
def Obligations.EventsComeInAnyOrder : Prop :=
  (∀ (s : State) (e : Event) (rest : List Event), s.agenda = e :: rest →
    step s = performEvent { s with agenda := rest } e) ∧
  (∀ s : State, s.agenda = [] →
    step s = performEvent { s with turns := s.turns + 1 } (allowedEvent (Config.environment s.turns)) ∧
    ∃ t, step s = .next t) ∧
  (∀ e : Event, (∀ rom, e = .reset rom → rom.length ≤ 3584) → allowedEvent e = e) ∧
  ∀ (s t : State) (e : Event), performEvent s e = .next t → t.agenda = s.agenda ∧ t.turns = s.turns

/-- 60_exceptions.md R261 and R260: any finite number `n` of `Tick`s may fall before a `Step`, and each is one decrement of
both timers, none lost; nothing else changes. The timers moving together is the spec's decision D13 (log 16), the line of
events the model's own (log 3). -/
def Obligations.TicksBeforeAStepAreNeverLost : Prop :=
  ∀ (n : Nat) (s : State) (rest : List Event), s.mode ≠ .halted →
    s.agenda = List.replicate n Event.tick ++ .step :: rest →
    ∃ t, Host.Core.run Sys2Proof.core n s = .next t ∧ t.dt.toNat = s.dt.toNat - n ∧ t.st.toNat = s.st.toNat - n ∧
      t = { s with dt := t.dt, st := t.st, agenda := .step :: rest }

/-- R120: in `Halted` a `Step` changes nothing and reports `Halted` with `drew` 0; in the other modes it proceeds to
fetch, and `Running` and `WaitingForKey` are treated identically, over every instruction. -/
def Obligations.HaltedIsTerminalAndWaitingStepsLikeRunning : Prop :=
  (∀ s : State, s.mode = .halted → engineStep s = .next s ∧ stepReport s = ⟨.halted, false⟩) ∧
  (∀ s : State, s.mode ≠ .halted → engineStep s = fetchAndPerform s ∧ stepReport s = fetchReport s) ∧
  ∀ s : State, engineStep { s with mode := .waitingForKey } = engineStep { s with mode := .running } ∧
    stepReport { s with mode := .waitingForKey } = stepReport { s with mode := .running }

/-- R122: `IDLE` completes with only the mode written and `PC` unchanged, and a `Step` at the word `0x0000` reports `Idle`
and is a fixed point. That the idle test comes before dispatch is the spec's decision D22 (log 22). -/
def Obligations.IdleWordChangesNothingAndStays : Prop :=
  (∀ s : State, Completes .idle s fun t => t.pc = s.pc ∧ Frame {} s t) ∧
  ∀ s : State, s.mode ≠ .halted → s.pc.toNat ≤ 0xFFE → Memory.read s.mem s.pc.toNat = 0 →
    Memory.read s.mem (s.pc.toNat + 1) = 0 →
    ∃ t, engineStep s = .next t ∧ t = { s with mode := .running } ∧ engineStep t = .next t ∧
      stepReport s = ⟨.idle, false⟩

/-- R121, R252: a `PC` above `0xFFE` faults at fetch with opcode `0x0000` and the lowest offending address, and nothing
else changes. Rests on D1, D5, D17 and D25 (log 9, log 19, log 20). -/
def Obligations.FetchOutOfRangeHalts : Prop :=
  ∀ s : State, s.mode ≠ .halted → 0xFFE < s.pc.toNat →
    engineStep s = .next (Faulted s .outOfRangeMemoryAccess 0x0000 (max 4096 s.pc.toNat)) ∧
    stepReport s = ⟨.fault, false⟩

/-- R96, R269: every unknown word halts the engine with `UnknownOpcode`, the word in the record and `PC` left at it. Rests
on D3 and D12 (log 7, log 15). -/
def Obligations.UnknownOpcodeHalts : Prop :=
  ∀ (s : State) (w : Word), s.mode ≠ .halted → s.pc.toNat ≤ 0xFFE →
    w.toNat = 256 * (Memory.read s.mem s.pc.toNat).toNat + (Memory.read s.mem (s.pc.toNat + 1)).toNat →
    unknownWord w = true →
    engineStep s = .next (Faulted s .unknownOpcode w 0) ∧ stepReport s = ⟨.fault, false⟩

/-- No behaviour is stuck (93_implementation_defined.md section 1): every instruction in every state, and every `Step`,
answers a next state. -/
def Obligations.EveryInstructionAndStepAnswers : Prop :=
  (∀ (i : Instr) (s : State), ∃ t, exec i s = .next t) ∧ ∀ s : State, ∃ t, engineStep s = .next t

/-- What a `Step` reports names what it did (R10, R125): `Halted` in `Halted`; else `Fault` exactly when it halts the
engine, `Waiting` exactly when it leaves `WaitingForKey`, `Idle` exactly at an in-range word `0x0000`, and otherwise
`Executed`. The names are the spec's decision D21 (log 18). -/
def Obligations.StepReportNamesTheOutcome : Prop :=
  ∀ s t : State, engineStep s = .next t →
    ((stepReport s).result = .halted ↔ s.mode = .halted) ∧
    ((stepReport s).result = .fault ↔ s.mode ≠ .halted ∧ t.mode = .halted) ∧
    ((stepReport s).result = .waiting ↔ t.mode = .waitingForKey) ∧
    ((stepReport s).result = .idle ↔ s.mode ≠ .halted ∧ fetch s = .ok 0x0000)

/-- `drew` is reported exactly when a `00E0` or `DXYN` completes (R10, R125, R211 corner case 3; 10_state.md R31;
90_conflicts.md C13): a `Step` that reports `drew` completed one of them and leaves `dirty` set; one that does not changes
neither `dirty` nor a pixel; and a `Step` that completes one of them reports `Executed` with `drew`, whether or not
anything changed. The report's form is the spec's decision D21 (log 18). -/
def Obligations.DrewReportsExactlyTheDraws : Prop :=
  ∀ s t : State, engineStep s = .next t →
    ((stepReport s).drew = true → t.dirty = true ∧ (stepReport s).result = .executed ∧
      ((∃ x y n, ∃ w, fetch s = .ok w ∧ decode w = .ok (.drw x y n)) ∨ ∃ w, fetch s = .ok w ∧ decode w = .ok .cls)) ∧
    ((stepReport s).drew = false → t.dirty = s.dirty ∧ ∀ cx cy, pixel t.fb cx cy = pixel s.fb cx cy) ∧
    (∀ (w : Word) (i : Instr), s.mode ≠ .halted → fetch s = .ok w → decode w = .ok i →
      (i = .cls ∨ ∃ x y n, i = .drw x y n) → t.mode ≠ .halted → stepReport s = ⟨.executed, true⟩)

/-! ## Faults -/

/-- Every instruction faults exactly where the table of 60_exceptions.md R250 and R251 says, with its kind and `info`, and
then only the mode and the record change (R253). Rests on D5, D6, D7, D17 and D25 (log 9, log 10, log 11, log 20), and
that a store below `0x200` raises none on D9 (log 13). -/
def Obligations.InstructionsFaultExactlyByTheTable : Prop :=
  ∀ (i : Instr) (s : State),
    (∀ kind info, causeOf s i = some (kind, info) → exec i s = .next (Faulted s kind (encode i) info)) ∧
    (causeOf s i = none → ∃ t, exec i s = .next t ∧ t.mode ≠ .halted ∧ t.fault = s.fault)

/-- Faults are precise (R252, R253): a `Step` that halts the engine changes only the mode and the record, whose opcode is
the fetched word (`0x0000` for a fetch fault) and whose `pc` is the instruction's address. Rests on D5 and D17 (log 9,
log 24). -/
def Obligations.FaultingStepsArePrecise : Prop :=
  ∀ s t : State, s.mode ≠ .halted → engineStep s = .next t → t.mode = .halted →
    ∃ kind info,
      (∀ w, fetch s = .ok w → t = Faulted s kind w info) ∧
      (∀ a, fetch s = .error a → t = Faulted s .outOfRangeMemoryAccess 0x0000 a)

/-- R256 and 93_implementation_defined.md U14: in `Halted` no event but `Reset` changes anything except the keys and the
dirty flag. Rests on D13 and D24 (log 16, log 31). -/
def Obligations.HaltedFreezesTheEngineUntilReset : Prop :=
  ∀ (s t : State) (e : Event), s.mode = .halted → (∀ rom, e ≠ .reset rom) → performEvent s e = .next t →
    t = { s with key := t.key, dirty := t.dirty }

/-- R251 (2): the kind `InvalidRegisterIndex` is never raised, in any state. -/
def Obligations.ReservedFaultKindIsNeverRaised : Prop :=
  ∀ (s t : State) (r : FaultRecord), step s = .next t → t.fault = some r → r.kind = .invalidRegisterIndex →
    s.fault = some r

/-! ## Frames and whole-machine rules -/

/-- The frame of every instruction (10_state.md R38, R21): what `mayTouch` lists may change and nothing else, and the fault
record is unchanged where the instruction raises no fault. Stored bytes are computed with the meanings' own `memBase` and
`regCount`. That `FX55` and `FX65` leave `I` is the spec's decision D4 (log 8). -/
def Obligations.EveryInstructionKeepsItsFrame : Prop :=
  ∀ (i : Instr) (s t : State), exec i s = .next t →
    Frame (mayTouch s i) s t ∧ (causeOf s i = none → t.fault = s.fault)

/-- The flag register (R21): only a flag-writing instruction, or one whose destination is `VF`, changes it; and a
flag-writing instruction that does not fault leaves exactly 0 or 1. For `X = 0xF` this rests on D2 but for `8XY4`
(log 6). -/
def Obligations.OnlyListedInstructionsWriteTheFlag : Prop :=
  ∀ (i : Instr) (s t : State), exec i s = .next t →
    (getV t 0xF ≠ getV s 0xF →
      (∃ x y, i = .add x y ∨ i = .sub x y ∨ i = .shr x y ∨ i = .subn x y ∨ i = .shl x y) ∨ (∃ x y n, i = .drw x y n) ∨
      (∃ nn, i = .ldi 0xF nn ∨ i = .addi 0xF nn ∨ i = .rnd 0xF nn) ∨
      (∃ y, i = .mov 0xF y ∨ i = .or 0xF y ∨ i = .and 0xF y ∨ i = .xor 0xF y) ∨
      i = .lddt 0xF ∨ i = .wkey 0xF ∨ i = .ldm 0xF) ∧
    ((∃ x y, i = .add x y ∨ i = .sub x y ∨ i = .shr x y ∨ i = .subn x y ∨ i = .shl x y) ∨ (∃ x y n, i = .drw x y n) →
      t.mode ≠ .halted → getV t 0xF = 0 ∨ getV t 0xF = 1)

/-- No instruction reads the sound timer or the dirty flag (10_state.md R27, R31): changing them before an instruction
changes nothing after it but themselves. -/
def Obligations.NoInstructionReadsSoundTimerOrDirty : Prop :=
  ∀ (i : Instr) (s t : State) (b : Byte) (d : Bool), exec i s = .next t →
    ∃ u, exec i { s with st := b, dirty := d } = .next u ∧ { u with st := t.st, dirty := t.dirty } = t

/-! ## The invariant -/

/-- The state after reset meets the invariant. -/
def Obligations.ResetMeetsTheInvariant : Prop := EngineInv State.reset

/-- Every step, whatever event it is, keeps the invariant: memory canonical and inside the 4096 bytes (20_memory.md R60),
`PC` at most `0x10FE` (10_state.md R23), return addresses fetchable (41_control_flow.md R140), a fault recorded exactly in
`Halted` (R33), and waiting only at an `FX0A` (40_step_cycle.md R125). -/
def Obligations.EveryStepKeepsTheInvariant : Prop :=
  ∀ s t : State, EngineInv s → step s = .next t → EngineInv t

/-! ## Reset and the environment's events -/

/-- `Reset(ROM)` (70_reset_and_hazards.md R290, R292; 10_state.md R37; 20_memory.md R62), from any state: the image stands
at `0x200`, the glyph table and zeros elsewhere, every register and array at its reset value; a longer image is refused.
Rests on D9, D10 and D14 (log 5, log 13, log 17). -/
def Obligations.ResetLoadsTheImageAndClearsTheEngine : Prop :=
  ∀ (s : State) (rom : List Byte),
    (rom.length ≤ 3584 → ∃ t, performEvent s (.reset rom) = .next t ∧
      (∀ j (h : j < rom.length), Memory.read t.mem (0x200 + j) = rom[j]) ∧
      Memory.read t.mem 0 = 0xF0 ∧ Memory.read t.mem 1 = 0x90 ∧
      (∀ a, a < 80 → Memory.read t.mem a = glyphTable.getD a 0) ∧
      (∀ a, 80 ≤ a → a < 0x200 ∨ 0x200 + rom.length ≤ a → Memory.read t.mem a = 0) ∧
      (∀ r, getV t r = 0) ∧ t.i = 0 ∧ t.pc = 0x200 ∧ t.sp = 0 ∧ (∀ k : Fin 16, t.stack[k.val] = 0) ∧
      t.dt = 0 ∧ t.st = 0 ∧ (∀ k, keyDown t k = false) ∧ (∀ x y, pixel t.fb x y = false) ∧
      t.dirty = false ∧ t.mode = .running ∧ t.fault = none) ∧
    (3584 < rom.length → performEvent s (.reset rom) = .refused .imageTooLong)

/-- `Tick` (60_exceptions.md R260, R262): both timers count down, floored at 0, and nothing else changes; in `Halted`
nothing happens, which is the spec's decision D13 (log 16). -/
def Obligations.TickCountsBothTimersDown : Prop :=
  ∀ s : State,
    (s.mode ≠ .halted → ∃ t, performEvent s .tick = .next t ∧ t.dt.toNat = s.dt.toNat - 1 ∧
      t.st.toNat = s.st.toNat - 1 ∧ t = { s with dt := t.dt, st := t.st }) ∧
    (s.mode = .halted → performEvent s .tick = .next s)

/-- `SetKeys(k)` sets each flag to its bit and `AckDirty` clears the dirty flag, in any mode, and nothing else changes
(R263, R264). The events' form is the spec's decision D15 (log 18). -/
def Obligations.SetKeysAndAckDirtyWriteOnlyTheirFlags : Prop :=
  ∀ (s : State) (k : BitVec 16),
    (∃ t, performEvent s (.setKeys k) = .next t ∧ (∀ q, keyDown t q = k.getLsbD q.toNat) ∧ t = { s with key := t.key }) ∧
    (∃ t, performEvent s .ackDirty = .next t ∧ t = { s with dirty := false })

/-- R261: the delay timer never increases but by `FX15` or a reset. -/
def Obligations.DelayTimerRisesOnlyBySetting : Prop :=
  ∀ s t : State, step s = .next t → (∀ rom, upcoming s ≠ .reset rom) →
    (∀ w x, fetch s = .ok w → decode w ≠ .ok (.stdt x)) → t.dt.toNat ≤ s.dt.toNat

/-! ## Register and ALU instructions -/

/-- R160 and R162: `6XNN` and `8XY0`. -/
def Obligations.LoadImmediateAndMoveResults : Prop :=
  RowDecodes 0xF000 0x6000 (fun w => .ldi (xField w) (nnField w)) ∧
  RowDecodes 0xF00F 0x8000 (fun w => .mov (xField w) (yField w)) ∧
  ∀ (x y : Reg) (nn : Byte) (s : State),
    Completes (.ldi x nn) s (fun t => getV t x = nn ∧ PcIs t (s.pc.toNat + 2) ∧ Frame (touchReg x) s t) ∧
    Completes (.mov x y) s (fun t => getV t x = getV s y ∧ PcIs t (s.pc.toNat + 2) ∧ Frame (touchReg x) s t)

/-- R161: `7XNN` wraps modulo 256 and writes no flag. -/
def Obligations.AddImmediateWrapsWithoutFlag : Prop :=
  RowDecodes 0xF000 0x7000 (fun w => .addi (xField w) (nnField w)) ∧
  ∀ (x : Reg) (nn : Byte) (s : State),
    Completes (.addi x nn) s (fun t => (getV t x).toNat = ((getV s x).toNat + nn.toNat) % 256 ∧
      (x ≠ 0xF → getV t 0xF = getV s 0xF) ∧ PcIs t (s.pc.toNat + 2) ∧ Frame (touchReg x) s t)

/-- R163, R164 and R165: `8XY1`, `8XY2`, `8XY3` bit by bit, with no flag. -/
def Obligations.LogicOperationsAreBitwiseWithoutFlag : Prop :=
  RowDecodes 0xF00F 0x8001 (fun w => .or (xField w) (yField w)) ∧
  RowDecodes 0xF00F 0x8002 (fun w => .and (xField w) (yField w)) ∧
  RowDecodes 0xF00F 0x8003 (fun w => .xor (xField w) (yField w)) ∧
  ∀ (x y : Reg) (s : State),
    Completes (.or x y) s (fun t =>
      (∀ k, (getV t x).getLsbD k = ((getV s x).getLsbD k || (getV s y).getLsbD k)) ∧
      (x ≠ 0xF → getV t 0xF = getV s 0xF) ∧ PcIs t (s.pc.toNat + 2) ∧ Frame (touchReg x) s t) ∧
    Completes (.and x y) s (fun t =>
      (∀ k, (getV t x).getLsbD k = ((getV s x).getLsbD k && (getV s y).getLsbD k)) ∧
      (x ≠ 0xF → getV t 0xF = getV s 0xF) ∧ PcIs t (s.pc.toNat + 2) ∧ Frame (touchReg x) s t) ∧
    Completes (.xor x y) s (fun t =>
      (∀ k, (getV t x).getLsbD k = ((getV s x).getLsbD k ^^ (getV s y).getLsbD k)) ∧
      (x ≠ 0xF → getV t 0xF = getV s 0xF) ∧ PcIs t (s.pc.toNat + 2) ∧ Frame (touchReg x) s t)

/-- R166: `8XY4`. The flag is right whether or not `X` or `Y` is `0xF`; with `X = 0xF` the sum is lost. -/
def Obligations.AddSetsTheCarryFlag : Prop :=
  RowDecodes 0xF00F 0x8004 (fun w => .add (xField w) (yField w)) ∧
  ∀ (x y : Reg) (s : State),
    Completes (.add x y) s (fun t =>
      getV t 0xF = (if (getV s x).toNat + (getV s y).toNat > 255 then 1 else 0) ∧
      (x ≠ 0xF → (getV t x).toNat = ((getV s x).toNat + (getV s y).toNat) % 256) ∧
      PcIs t (s.pc.toNat + 2) ∧ Frame (touchRegAndFlag x) s t)

/-- R167 and R169: `8XY5` and `8XY7`, the difference modulo 256 and not-borrow. For `X` or `Y = 0xF` this rests on the
spec's decision D2 (log 6). -/
def Obligations.SubtractionsSetNotBorrow : Prop :=
  ∀ (x y : Reg) (s : State),
    Completes (.sub x y) s (fun t =>
      getV t 0xF = (if (getV s x).toNat < (getV s y).toNat then 0 else 1) ∧
      (x ≠ 0xF → (getV t x).toNat = ((getV s x).toNat + 256 - (getV s y).toNat) % 256) ∧
      PcIs t (s.pc.toNat + 2) ∧ Frame (touchRegAndFlag x) s t) ∧
    Completes (.subn x y) s (fun t =>
      getV t 0xF = (if (getV s y).toNat < (getV s x).toNat then 0 else 1) ∧
      (x ≠ 0xF → (getV t x).toNat = ((getV s y).toNat + 256 - (getV s x).toNat) % 256) ∧
      PcIs t (s.pc.toNat + 2) ∧ Frame (touchRegAndFlag x) s t)

/-- R168 and R170: `8XY6` and `8XYE` shift `V[X]` by one bit, whatever `Y` is, and report the bit shifted out. For
`X = 0xF` this rests on the spec's decision D2 (log 6). -/
def Obligations.ShiftsReportTheBitShiftedOut : Prop :=
  ∀ (x y : Reg) (s : State),
    Completes (.shr x y) s (fun t =>
      getV t 0xF = (if (getV s x).getLsbD 0 then 1 else 0) ∧
      (x ≠ 0xF → ∀ k, k < 8 → (getV t x).getLsbD k = (getV s x).getLsbD (k + 1)) ∧
      PcIs t (s.pc.toNat + 2) ∧ Frame (touchRegAndFlag x) s t) ∧
    Completes (.shl x y) s (fun t =>
      getV t 0xF = (if (getV s x).getLsbD 7 then 1 else 0) ∧
      (x ≠ 0xF → (getV t x).getLsbD 0 = false ∧ ∀ k, k < 7 → (getV t x).getLsbD (k + 1) = (getV s x).getLsbD k) ∧
      PcIs t (s.pc.toNat + 2) ∧ Frame (touchRegAndFlag x) s t)

/-- R171: `CXNN` leaves in `V[X]` the next byte of the random source, a free value (log 1), AND `NN`, and draws exactly
one; so every bit that is 0 in `NN` is 0. -/
def Obligations.RandomByteIsMasked : Prop :=
  ∀ (x : Reg) (nn : Byte) (s : State),
    Completes (.rnd x nn) s (fun t =>
      getV t x = Config.randomByte s.draws &&& nn ∧ t.draws = s.draws + 1 ∧
      (∀ k, nn.getLsbD k = false → (getV t x).getLsbD k = false) ∧
      PcIs t (s.pc.toNat + 2) ∧ Frame { touchReg x with draws := true } s t)

/-! ## Control transfer -/

/-- R143, R144, R145 and R146: the four register skips. That the low nibble of `5XY0` and `9XY0` is checked is the spec's
decision D12 (log 15). -/
def Obligations.RegisterSkipsAdvanceByFourOrTwo : Prop :=
  RowDecodes 0xF000 0x3000 (fun w => .sei (xField w) (nnField w)) ∧
  RowDecodes 0xF000 0x4000 (fun w => .snei (xField w) (nnField w)) ∧
  RowDecodes 0xF00F 0x5000 (fun w => .ser (xField w) (yField w)) ∧
  RowDecodes 0xF00F 0x9000 (fun w => .sner (xField w) (yField w)) ∧
  ∀ (x y : Reg) (nn : Byte) (s : State),
    Completes (.sei x nn) s (fun t =>
      PcIs t (if getV s x = nn then s.pc.toNat + 4 else s.pc.toNat + 2) ∧ Frame {} s t) ∧
    Completes (.snei x nn) s (fun t =>
      PcIs t (if getV s x = nn then s.pc.toNat + 2 else s.pc.toNat + 4) ∧ Frame {} s t) ∧
    Completes (.ser x y) s (fun t =>
      PcIs t (if getV s x = getV s y then s.pc.toNat + 4 else s.pc.toNat + 2) ∧ Frame {} s t) ∧
    Completes (.sner x y) s (fun t =>
      PcIs t (if getV s x = getV s y then s.pc.toNat + 2 else s.pc.toNat + 4) ∧ Frame {} s t)

/-- R141: `1NNN`. -/
def Obligations.JumpSetsPc : Prop :=
  RowDecodes 0xF000 0x1000 (fun w => .jp (nnnField w)) ∧
  ∀ (nnn : Addr) (s : State), Completes (.jp nnn) s (fun t => t.pc.toNat = nnn.toNat ∧ Frame {} s t)

/-- R147: `BNNN` sets `PC` to the unreduced sum. Rests on D1 and D25 (log 19, log 20). -/
def Obligations.IndexedJumpSetsPcUnreduced : Prop :=
  ∀ (nnn : Addr) (s : State),
    Completes (.jpv0 nnn) s (fun t => t.pc.toNat = nnn.toNat + (getV s 0).toNat ∧ Frame {} s t)

/-- R142: `2NNN` stores its own address at `stack[SP]`, increments `SP` and jumps, the other entries unchanged; with
`SP = 16` it faults. The fault's record rests on D5 and D17 (log 9). -/
def Obligations.CallPushesItsOwnAddress : Prop :=
  ∀ (nnn : Addr) (s : State),
    (s.sp.val < 16 → Completes (.call nnn) s (fun t =>
      t.pc.toNat = nnn.toNat ∧ t.sp.val = s.sp.val + 1 ∧
      (∀ k : Fin 16, t.stack[k.val] = if k.val = s.sp.val then s.pc else s.stack[k.val]) ∧
      Frame { stack := true } s t)) ∧
    (s.sp.val = 16 → exec (.call nnn) s = .next (Faulted s .stackOverflow (encode (.call nnn)) 16))

/-- R140: `00EE` decrements `SP` and resumes two bytes after the call whose address it pops; the entry keeps its contents
(R24). With `SP = 0` it faults; the fault's record rests on D5 and D17 (log 9). -/
def Obligations.ReturnResumesAfterTheCall : Prop :=
  ∀ s : State,
    (∀ k : Fin 16, s.sp.val = k.val + 1 → Completes .ret s (fun t =>
      PcIs t ((s.stack[k.val]).toNat + 2) ∧ t.sp.val = k.val ∧ t.stack = s.stack ∧ Frame { stack := true } s t)) ∧
    (s.sp.val = 0 → exec .ret s = .next (Faulted s .stackUnderflow (encode .ret) 0))

/-- The round trip of R140: a call and then, wherever it landed and whatever ran in between that left the stack alone, a
return resumes at the call's address plus 2 with `SP` as before the call. -/
def Obligations.CallThenReturnRoundTrips : Prop :=
  ∀ (nnn : Addr) (s : State), s.sp.val < 16 → ∃ t, exec (.call nnn) s = .next t ∧
    ∀ u : State, u.stack = t.stack → u.sp = t.sp →
      Completes .ret u (fun r => PcIs r (s.pc.toNat + 2) ∧ r.sp = s.sp)

/-! ## Index register and memory -/

/-- R190, R191 and R192: `ANNN`, `FX1E` (modulo 65536, no flag) and `FX29` (the whole byte times 5). -/
def Obligations.IndexRegisterResults : Prop :=
  RowDecodes 0xF000 0xA000 (fun w => .ldix (nnnField w)) ∧
  RowDecodes 0xF0FF 0xF01E (fun w => .addix (xField w)) ∧
  RowDecodes 0xF0FF 0xF029 (fun w => .font (xField w)) ∧
  ∀ (nnn : Addr) (x : Reg) (s : State),
    Completes (.ldix nnn) s (fun t =>
      t.i.toNat = nnn.toNat ∧ PcIs t (s.pc.toNat + 2) ∧ Frame { index := true } s t) ∧
    Completes (.addix x) s (fun t =>
      t.i.toNat = (s.i.toNat + (getV s x).toNat) % 65536 ∧ PcIs t (s.pc.toNat + 2) ∧ Frame { index := true } s t) ∧
    Completes (.font x) s (fun t =>
      t.i.toNat = 5 * (getV s x).toNat ∧ PcIs t (s.pc.toNat + 2) ∧ Frame { index := true } s t)

/-- R193: `FX33` writes the three decimal digits at `I`, `I+1`, `I+2`, in a canonical memory, and leaves every other byte
and `I`; where `I + 2` is above 4095 it faults and writes nothing. That it completes below `0x200` too rests on D9 (log
13), the fault on D5 and D17 (log 9). -/
def Obligations.BcdWritesTheThreeDigits : Prop :=
  ∀ (x : Reg) (s : State),
    (Memory.wf s.mem → s.i.toNat + 2 ≤ 4095 → Completes (.bcd x) s (fun t =>
      ∃ h d u : Nat, h ≤ 2 ∧ d ≤ 9 ∧ u ≤ 9 ∧ 100 * h + 10 * d + u = (getV s x).toNat ∧
        (Memory.read t.mem s.i.toNat).toNat = h ∧ (Memory.read t.mem (s.i.toNat + 1)).toNat = d ∧
        (Memory.read t.mem (s.i.toNat + 2)).toNat = u ∧ Memory.wf t.mem ∧
        PcIs t (s.pc.toNat + 2) ∧ Frame (touchBytes (memBase s) 3) s t)) ∧
    (4095 < s.i.toNat + 2 →
      exec (.bcd x) s = .next (Faulted s .outOfRangeMemoryAccess (encode (.bcd x)) (max 4096 s.i.toNat)))

/-- R194: `FX55` stores `V[0]..V[X]` at `I` up, in a canonical memory, and leaves `I` (the spec's decision D4, log 8) and
every other byte; where `I + X` is above 4095 it faults and writes nothing (D5, D17, log 9). That it completes below
`0x200` too rests on D9 (log 13). -/
def Obligations.StoreRegistersResult : Prop :=
  ∀ (x : Reg) (s : State),
    (Memory.wf s.mem → s.i.toNat + x.toNat ≤ 4095 → Completes (.stm x) s (fun t =>
      (∀ r : Reg, r.toNat ≤ x.toNat → Memory.read t.mem (s.i.toNat + r.toNat) = getV s r) ∧
      t.i = s.i ∧ Memory.wf t.mem ∧ PcIs t (s.pc.toNat + 2) ∧ Frame (touchBytes (memBase s) (regCount x)) s t)) ∧
    (4095 < s.i.toNat + x.toNat →
      exec (.stm x) s = .next (Faulted s .outOfRangeMemoryAccess (encode (.stm x)) (max 4096 s.i.toNat)))

/-- R195: `FX65` loads `V[0]..V[X]` from `I` up and leaves `I` (D4, log 8) and the registers above `V[X]`; where `I + X` is
above 4095 it faults and loads nothing (D5, D17, log 9). -/
def Obligations.LoadRegistersResult : Prop :=
  ∀ (x : Reg) (s : State),
    (s.i.toNat + x.toNat ≤ 4095 → Completes (.ldm x) s (fun t =>
      (∀ r : Reg, r.toNat ≤ x.toNat → getV t r = Memory.read s.mem (s.i.toNat + r.toNat)) ∧
      t.i = s.i ∧ PcIs t (s.pc.toNat + 2) ∧ Frame { regs := fun r => decide (r.toNat ≤ x.toNat) } s t)) ∧
    (4095 < s.i.toNat + x.toNat →
      exec (.ldm x) s = .next (Faulted s .outOfRangeMemoryAccess (encode (.ldm x)) (max 4096 s.i.toNat)))

/-- Stores are seen by later loads and by fetch (20_memory.md R70, R73): after `FX55`, an `FX65` of the same range in any
state with that memory and that `I` loads what was stored, and a fetch at two stored bytes reads the registers stored
there. That `I` stays is D4 (log 8), and that the store completes below `0x200` too is D9 (log 13). -/
def Obligations.StoredRegistersAreLoadedAndFetched : Prop :=
  ∀ (x : Reg) (s : State), Memory.wf s.mem → s.i.toNat + x.toNat ≤ 4095 →
    ∃ t, exec (.stm x) s = .next t ∧
      (∀ u : State, u.mem = t.mem → u.i = s.i →
        ∃ r, exec (.ldm x) u = .next r ∧ ∀ q : Reg, q.toNat ≤ x.toNat → getV r q = getV s q) ∧
      ∀ (u : State) (q p : Reg), u.mem = t.mem → p.toNat = q.toNat + 1 → p.toNat ≤ x.toNat →
        u.pc.toNat = s.i.toNat + q.toNat →
        ∃ w, fetch u = .ok w ∧ w.toNat = 256 * (getV s q).toNat + (getV s p).toNat

/-! ## Display -/

/-- R210: `00E0`. -/
def Obligations.ClearScreenResult : Prop :=
  RowDecodes 0xFFFF 0x00E0 (fun _ => .cls) ∧
  ∀ s : State, Completes .cls s (fun t =>
    (∀ x y, pixel t.fb x y = false) ∧ t.dirty = true ∧ PcIs t (s.pc.toNat + 2) ∧ Frame { screen := true } s t) ∧
    reportOf .cls (exec .cls s) = ⟨.executed, true⟩

/-- R211, R212: `DXYN` flips exactly the cells the sprite covers, wrapping on both axes; `VF` is 1 exactly when a covered
cell was lit before; `dirty` is raised; with `N = 0` it draws nothing and completes whatever `I` is. Rests on D2 (`X` or
`Y = 0xF`, log 6) and D11 (the bit order, log 14). Out of range it faults (D5, D17, log 9). -/
def Obligations.DrawXorsTheSpriteAndReportsCollision : Prop :=
  ∀ (x y : Reg) (n : Nibble) (s : State),
    (n = 0 ∨ s.i.toNat + n.toNat ≤ 4096 → Completes (.drw x y n) s (fun t =>
      (∀ cx cy, (pixel t.fb cx cy = true ↔ ¬(pixel s.fb cx cy = true ↔ spriteCovers s x y n cx cy))) ∧
      (getV t 0xF = 0 ∨ getV t 0xF = 1) ∧
      (getV t 0xF = 1 ↔ ∃ cx cy, spriteCovers s x y n cx cy ∧ pixel s.fb cx cy = true) ∧
      t.dirty = true ∧ PcIs t (s.pc.toNat + 2) ∧ Frame { regs := fun r => r == 0xF, screen := true } s t)) ∧
    (0 < n.toNat → 4096 < s.i.toNat + n.toNat →
      exec (.drw x y n) s = .next (Faulted s .outOfRangeMemoryAccess (encode (.drw x y n)) (max 4096 s.i.toNat)))

/-- R213: within one draw no two set bits address the same cell, for any sprite of at most 15 rows anywhere. -/
def Obligations.SpriteNeverOverlapsItself : Prop :=
  ∀ (x0 y0 row : Nat) (bs : List Byte), bs.length ≤ 15 → (spriteCells x0 y0 row bs).Nodup

/-- The property of R211 (document example E7): drawing the same sprite twice at the same place restores every pixel, and
the second draw sets `VF` to 1 exactly when the first lit some pixel; `X` and `Y` are not `VF`, which the first draw
overwrites. Rests on D11 (log 14). -/
def Obligations.DrawingTwiceRestoresTheScreen : Prop :=
  ∀ (x y : Reg) (n : Nibble) (s : State), x ≠ 0xF → y ≠ 0xF → (n = 0 ∨ s.i.toNat + n.toNat ≤ 4096) →
    ∃ t u, exec (.drw x y n) s = .next t ∧ exec (.drw x y n) t = .next u ∧
      (∀ cx cy, pixel u.fb cx cy = pixel s.fb cx cy) ∧
      (getV u 0xF = 1 ↔ ∃ cx cy, spriteCovers s x y n cx cy ∧ pixel s.fb cx cy = false)

/-! ## Keypad and timers -/

/-- R230 and R231: `EX9E` and `EXA1` with `V[X]` at most 15 skip on the level of key `V[X]`; above 15 they fault, which is
the spec's decision D7 (log 11). -/
def Obligations.KeySkipsTestTheKeyLevel : Prop :=
  ∀ (x k : Reg) (s : State),
    ((getV s x).toNat = k.toNat →
      Completes (.skp x) s (fun t =>
        PcIs t (if keyDown s k = true then s.pc.toNat + 4 else s.pc.toNat + 2) ∧ Frame {} s t) ∧
      Completes (.sknp x) s (fun t =>
        PcIs t (if keyDown s k = true then s.pc.toNat + 2 else s.pc.toNat + 4) ∧ Frame {} s t)) ∧
    (15 < (getV s x).toNat →
      exec (.skp x) s = .next (Faulted s .keyIndexOutOfRange (encode (.skp x)) (getV s x).toNat) ∧
      exec (.sknp x) s = .next (Faulted s .keyIndexOutOfRange (encode (.sknp x)) (getV s x).toNat))

/-- R232: `FX0A` with no key down only sets the mode to `WaitingForKey`, and stays so at every later `Step`; with a key
down it stores the least index down, which is the spec's decision D8 (log 12). -/
def Obligations.WaitForKeyStoresTheLowestKeyDown : Prop :=
  ∀ (x : Reg) (s : State),
    ((∀ k, keyDown s k = false) → exec (.wkey x) s = .next { s with mode := .waitingForKey }) ∧
    (∀ k, keyDown s k = true → (∀ j : Reg, j.toNat < k.toNat → keyDown s j = false) →
      Completes (.wkey x) s (fun t =>
        (getV t x).toNat = k.toNat ∧ PcIs t (s.pc.toNat + 2) ∧ Frame (touchReg x) s t)) ∧
    ((∀ k, keyDown s k = false) → s.mode ≠ .halted → (∃ w, fetch s = .ok w ∧ decode w = .ok (.wkey x)) →
      ∃ t, engineStep s = .next t ∧ t.pc = s.pc ∧ t.mode = .waitingForKey ∧ engineStep t = .next t)

/-- R233, R234 and R235: `FX07`, `FX15` and `FX18`. -/
def Obligations.TimerInstructionsCopyTheTimers : Prop :=
  RowDecodes 0xF0FF 0xF007 (fun w => .lddt (xField w)) ∧
  RowDecodes 0xF0FF 0xF015 (fun w => .stdt (xField w)) ∧
  RowDecodes 0xF0FF 0xF018 (fun w => .stst (xField w)) ∧
  ∀ (x : Reg) (s : State),
    Completes (.lddt x) s (fun t => getV t x = s.dt ∧ PcIs t (s.pc.toNat + 2) ∧ Frame (touchReg x) s t) ∧
    Completes (.stdt x) s (fun t => t.dt = getV s x ∧ PcIs t (s.pc.toNat + 2) ∧ Frame { dt := true } s t) ∧
    Completes (.stst x) s (fun t => t.st = getV s x ∧ PcIs t (s.pc.toNat + 2) ∧ Frame { st := true } s t)
end

