-- ==== Sys2Proof/Laws/Encoding.lean ====
section
/-! SUPPORT. The small lemmas of the fields and formats (30_encoding.md R91, R92), first as numbers, then as fields of a
built word, so that no proof takes an append or an extract apart again. -/

namespace Sys2Proof

/-! ## Fields as numbers -/

theorem toNat_opField (w : Word) : (opField w).toNat = w.toNat / 4096 := by
  have := w.isLt
  simp only [opField, BitVec.extractLsb'_toNat, Nat.shiftRight_eq_div_pow]
  omega

theorem toNat_xField (w : Word) : (xField w).toNat = w.toNat / 256 % 16 := by
  simp [xField, Nat.shiftRight_eq_div_pow]

theorem toNat_yField (w : Word) : (yField w).toNat = w.toNat / 16 % 16 := by
  simp [yField, Nat.shiftRight_eq_div_pow]

theorem toNat_nField (w : Word) : (nField w).toNat = w.toNat % 16 := by
  simp [nField]

theorem toNat_nnField (w : Word) : (nnField w).toNat = w.toNat % 256 := by
  simp [nnField]

theorem toNat_nnnField (w : Word) : (nnnField w).toNat = w.toNat % 4096 := by
  simp [nnnField]

/-! ## Built words as numbers -/

/-- An append as a number: the high part times two to the width of the low part, plus the low part. -/
theorem toNat_append_mul {m n : Nat} (a : BitVec m) (b : BitVec n) :
    (a ++ b).toNat = a.toNat * 2 ^ n + b.toNat := by
  rw [BitVec.toNat_append, ← Nat.shiftLeft_add_eq_or_of_lt b.isLt, Nat.shiftLeft_eq]

theorem toNat_wordNNN (o : BitVec 4) (nnn : Addr) : (wordNNN o nnn).toNat = o.toNat * 4096 + nnn.toNat :=
  toNat_append_mul o nnn

theorem toNat_wordXNN (o : BitVec 4) (x : Reg) (nn : Byte) :
    (wordXNN o x nn).toNat = o.toNat * 4096 + x.toNat * 256 + nn.toNat := by
  have h1 : (wordXNN o x nn).toNat = (o ++ x : BitVec (4 + 4)).toNat * 2 ^ 8 + nn.toNat := toNat_append_mul (o ++ x) nn
  rw [h1, toNat_append_mul o x]; ring

theorem toNat_wordXYN (o : BitVec 4) (x y : Reg) (n : Nibble) :
    (wordXYN o x y n).toNat = o.toNat * 4096 + x.toNat * 256 + y.toNat * 16 + n.toNat := by
  have h1 : (wordXYN o x y n).toNat = (o ++ x ++ y : BitVec (4 + 4 + 4)).toNat * 2 ^ 4 + n.toNat :=
    toNat_append_mul (o ++ x ++ y) n
  rw [h1, toNat_append_mul (o ++ x) y, toNat_append_mul o x]; ring

theorem toNat_wordOfBytes (hi lo : Byte) : (wordOfBytes hi lo).toNat = 256 * hi.toNat + lo.toNat := by
  have h : (wordOfBytes hi lo).toNat = hi.toNat * 2 ^ 8 + lo.toNat := toNat_append_mul hi lo
  omega

/-! ## The fields of a built word -/

variable (o : BitVec 4) (x y : Reg) (n : Nibble) (nn : Byte) (nnn : Addr)

@[simp] theorem opField_wordNNN : opField (wordNNN o nnn) = o := by
  apply BitVec.eq_of_toNat_eq; rw [toNat_opField, toNat_wordNNN]; omega
@[simp] theorem nnnField_wordNNN : nnnField (wordNNN o nnn) = nnn := by
  apply BitVec.eq_of_toNat_eq; rw [toNat_nnnField, toNat_wordNNN]; omega

@[simp] theorem opField_wordXNN : opField (wordXNN o x nn) = o := by
  apply BitVec.eq_of_toNat_eq; rw [toNat_opField, toNat_wordXNN]; omega
@[simp] theorem xField_wordXNN : xField (wordXNN o x nn) = x := by
  apply BitVec.eq_of_toNat_eq; rw [toNat_xField, toNat_wordXNN]; omega
@[simp] theorem nnField_wordXNN : nnField (wordXNN o x nn) = nn := by
  apply BitVec.eq_of_toNat_eq; rw [toNat_nnField, toNat_wordXNN]; omega

@[simp] theorem opField_wordXYN : opField (wordXYN o x y n) = o := by
  apply BitVec.eq_of_toNat_eq; rw [toNat_opField, toNat_wordXYN]; omega
@[simp] theorem xField_wordXYN : xField (wordXYN o x y n) = x := by
  apply BitVec.eq_of_toNat_eq; rw [toNat_xField, toNat_wordXYN]; omega
@[simp] theorem yField_wordXYN : yField (wordXYN o x y n) = y := by
  apply BitVec.eq_of_toNat_eq; rw [toNat_yField, toNat_wordXYN]; omega
@[simp] theorem nField_wordXYN : nField (wordXYN o x y n) = n := by
  apply BitVec.eq_of_toNat_eq; rw [toNat_nField, toNat_wordXYN]; omega

/-! ## A word is built from its fields -/

theorem wordNNN_fields (w : Word) : wordNNN (opField w) (nnnField w) = w := by
  apply BitVec.eq_of_toNat_eq
  rw [toNat_wordNNN, toNat_opField, toNat_nnnField]; omega

theorem wordXNN_fields (w : Word) : wordXNN (opField w) (xField w) (nnField w) = w := by
  apply BitVec.eq_of_toNat_eq
  rw [toNat_wordXNN, toNat_opField, toNat_xField, toNat_nnField]; omega

theorem wordXYN_fields (w : Word) : wordXYN (opField w) (xField w) (yField w) (nField w) = w := by
  apply BitVec.eq_of_toNat_eq
  rw [toNat_wordXYN, toNat_opField, toNat_xField, toNat_yField, toNat_nField]; omega

/-- A word is the two bytes memory holds of it (R66). -/
theorem wordOfBytes_bytes (w : Word) : wordOfBytes (w.extractLsb' 8 8) (w.extractLsb' 0 8) = w := by
  apply BitVec.eq_of_toNat_eq
  have := w.isLt
  rw [toNat_wordOfBytes]
  simp only [BitVec.extractLsb'_toNat, Nat.shiftRight_eq_div_pow]
  omega

/-! ## The masks of the opcode map -/

theorem and_F (a : BitVec 4) : a &&& 15#4 = a := BitVec.and_allOnes
theorem and_FF (a : BitVec 8) : a &&& 255#8 = a := BitVec.and_allOnes

/-- Mask `0xF000` takes the high nibble. -/
theorem and_maskF000 (w : Word) (o : BitVec 4) : w &&& 0xF000 = wordNNN o 0 ↔ opField w = o := by
  have h : w &&& 0xF000 = wordNNN (opField w) 0 := by
    conv_lhs => rw [← wordNNN_fields w]
    show (opField w ++ nnnField w : BitVec (4 + 12)) &&& (0xF#4 ++ 0#12) = opField w ++ 0#12
    rw [BitVec.and_append]; simp [and_F]
  rw [h]
  exact ⟨fun e => by simpa using congrArg opField e, fun e => by rw [e]⟩

/-- Mask `0xF00F` takes the high and the low nibble. -/
theorem and_maskF00F (w : Word) (o n : BitVec 4) :
    w &&& 0xF00F = wordXYN o 0 0 n ↔ opField w = o ∧ nField w = n := by
  have h : w &&& 0xF00F = wordXYN (opField w) 0 0 (nField w) := by
    conv_lhs => rw [← wordXYN_fields w]
    show (opField w ++ xField w ++ yField w ++ nField w : BitVec (4 + 4 + 4 + 4)) &&& (0xF#4 ++ 0#4 ++ 0#4 ++ 0xF#4) =
      opField w ++ 0#4 ++ 0#4 ++ nField w
    rw [BitVec.and_append, BitVec.and_append, BitVec.and_append]; simp [and_F]
  rw [h]
  exact ⟨fun e => ⟨by simpa using congrArg opField e, by simpa using congrArg nField e⟩, fun e => by rw [e.1, e.2]⟩

/-- Mask `0xF0FF` takes the high nibble and the low byte. -/
theorem and_maskF0FF (w : Word) (o : BitVec 4) (nn : Byte) :
    w &&& 0xF0FF = wordXNN o 0 nn ↔ opField w = o ∧ nnField w = nn := by
  have h : w &&& 0xF0FF = wordXNN (opField w) 0 (nnField w) := by
    conv_lhs => rw [← wordXNN_fields w]
    show (opField w ++ xField w ++ nnField w : BitVec (4 + 4 + 8)) &&& (0xF#4 ++ 0#4 ++ 0xFF#8) =
      opField w ++ 0#4 ++ nnField w
    rw [BitVec.and_append, BitVec.and_append]
    simp [and_F, and_FF]
  rw [h]
  exact ⟨fun e => ⟨by simpa using congrArg opField e, by simpa using congrArg nnField e⟩, fun e => by rw [e.1, e.2]⟩

end Sys2Proof
end

