-- ==== Sys2Proof/Laws/Memory.lean ====
section
/-! SUPPORT. The laws of memory: a read after a write, and the canonical form that every operation keeps. -/

namespace Sys2Proof.Machine

/-! ## Reading after writing -/

/-- An address that every listed address is above reads as unlisted. -/
theorem Memory.read_of_lt {m : Memory} {a : Nat} (h : ∀ c ∈ m, a < c.1) : Memory.read m a = resetByte a := by
  induction m with
  | nil => rfl
  | cons c m ih =>
    have hc := h c (by simp)
    rw [Memory.read, if_neg (by omega), ih fun d hd => h d (by simp [hd])]

theorem Memory.wf_cons {c : Host.Cell} {m : Memory} :
    Memory.wf (c :: m) ↔ (∀ d ∈ m, c.1 < d.1) ∧ c.2 ≠ resetByte c.1 ∧ Memory.wf m := by
  simp only [Memory.wf, List.map_cons, List.pairwise_cons, List.mem_map, List.forall_mem_cons]
  constructor
  · rintro ⟨⟨h1, h2⟩, h3, h4⟩
    exact ⟨fun d hd => h1 _ ⟨d, hd, rfl⟩, h3, h2, h4⟩
  · rintro ⟨h1, h3, h2, h4⟩
    exact ⟨⟨fun _ ⟨d, hd, e⟩ => e ▸ h1 d hd, h2⟩, h3, h4⟩

theorem Memory.read_write_other {m : Memory} {a q : Nat} (b : Byte) (h : q ≠ a) :
    Memory.read (Memory.write m a b) q = Memory.read m q := by
  induction m with
  | nil => unfold Memory.write; split <;> simp [Memory.read, Ne.symm h]
  | cons c m ih =>
    unfold Memory.write
    split
    · split <;> simp [Memory.read, Ne.symm h]
    · split
      · next hc => subst hc; split <;> simp [Memory.read, Ne.symm h]
      · simp [Memory.read, ih]

/-- A read of the address just written gives the byte written, in a canonical memory. -/
theorem Memory.read_write_same {m : Memory} (hm : Memory.wf m) (a : Nat) (b : Byte) :
    Memory.read (Memory.write m a b) a = b := by
  induction m with
  | nil => unfold Memory.write; split <;> simp_all [Memory.read]
  | cons c m ih =>
    obtain ⟨h1, _, h3⟩ := Memory.wf_cons.mp hm
    unfold Memory.write
    split
    · next hlt =>
      split
      · next hb =>
        rw [Memory.read_of_lt fun d hd => ?_, hb]
        rcases List.mem_cons.mp hd with rfl | hd
        · exact hlt
        · exact Nat.lt_trans hlt (h1 d hd)
      · simp [Memory.read]
    · split
      · next he =>
        split
        · next hb => rw [Memory.read_of_lt fun d hd => he ▸ h1 d hd, hb]
        · simp [Memory.read]
      · next he => simp [Memory.read, Ne.symm he, ih h3]

/-- Read after write, both cases (20_memory.md R69). -/
theorem Memory.read_write {m : Memory} (hm : Memory.wf m) (a q : Nat) (b : Byte) :
    Memory.read (Memory.write m a b) q = if q = a then b else Memory.read m q := by
  split
  · next h => rw [h, Memory.read_write_same hm]
  · next h => exact Memory.read_write_other b h

/-! ## The canonical form -/

theorem Memory.mem_write {m : Memory} {a : Nat} {b : Byte} {c : Host.Cell} (h : c ∈ Memory.write m a b) :
    c = (a, b) ∨ c ∈ m := by
  induction m with
  | nil => unfold Memory.write at h; split at h <;> simp_all
  | cons d m ih =>
    unfold Memory.write at h
    split at h
    · split at h <;> simp_all
    · split at h
      · split at h <;> simp_all; tauto
      · rcases List.mem_cons.mp h with rfl | h
        · simp
        · rcases ih h with h | h <;> simp [h]

/-- A write keeps the canonical form. -/
theorem Memory.write_wf {m : Memory} (hm : Memory.wf m) (a : Nat) (b : Byte) : Memory.wf (Memory.write m a b) := by
  induction m with
  | nil => unfold Memory.write; split <;> simp_all [Memory.wf]
  | cons c m ih =>
    obtain ⟨h1, h2, h3⟩ := Memory.wf_cons.mp hm
    unfold Memory.write
    split
    · next hlt =>
      split
      · exact hm
      · next hb =>
        refine Memory.wf_cons.mpr ⟨fun d hd => ?_, hb, hm⟩
        rcases List.mem_cons.mp hd with rfl | hd
        · exact hlt
        · exact Nat.lt_trans hlt (h1 d hd)
    · next hge =>
      split
      · next he =>
        split
        · exact h3
        · next hb => exact Memory.wf_cons.mpr ⟨fun d hd => he ▸ h1 d hd, hb, h3⟩
      · next he =>
        refine Memory.wf_cons.mpr ⟨fun d hd => ?_, h2, ih h3⟩
        rcases Memory.mem_write hd with rfl | hd
        · show c.1 < a; omega
        · exact h1 d hd

/-- A write keeps every listed address below a bound that its own address is below. -/
theorem Memory.write_below {m : Memory} {n a : Nat} (hm : ∀ c ∈ m, c.1 < n) (ha : a < n) (b : Byte) :
    ∀ c ∈ Memory.write m a b, c.1 < n := fun c hc => by
  rcases Memory.mem_write hc with rfl | hc
  · exact ha
  · exact hm c hc

/-! ## Byte ranges -/

theorem Memory.writeBytes_wf {m : Memory} (hm : Memory.wf m) (a : Nat) (bs : List Byte) :
    Memory.wf (Memory.writeBytes m a bs) := by
  induction bs generalizing m a with
  | nil => exact hm
  | cons b bs ih => exact ih (Memory.write_wf hm a b) (a + 1)

theorem Memory.writeBytes_below {m : Memory} {n a : Nat} (hm : ∀ c ∈ m, c.1 < n) (bs : List Byte)
    (ha : a + bs.length ≤ n) : ∀ c ∈ Memory.writeBytes m a bs, c.1 < n := by
  induction bs generalizing m a with
  | nil => exact hm
  | cons b bs ih =>
    simp only [List.length_cons] at ha
    exact ih (Memory.write_below hm (by omega) b) (by omega)

/-- Bytes outside the range written read as before, in any memory. -/
theorem Memory.read_writeBytes_other {m : Memory} (a : Nat) (bs : List Byte) {q : Nat}
    (h : ¬(a ≤ q ∧ q < a + bs.length)) : Memory.read (Memory.writeBytes m a bs) q = Memory.read m q := by
  induction bs generalizing m a with
  | nil => rfl
  | cons b bs ih =>
    simp only [List.length_cons] at h
    rw [Memory.writeBytes, ih (a + 1) (by omega), Memory.read_write_other b (by omega)]

/-- Bytes inside the range written read as written, in a canonical memory. -/
theorem Memory.read_writeBytes_inside {m : Memory} (hm : Memory.wf m) (a : Nat) (bs : List Byte) {k : Nat}
    (h : k < bs.length) : Memory.read (Memory.writeBytes m a bs) (a + k) = bs[k] := by
  induction bs generalizing m a k with
  | nil => simp at h
  | cons b bs ih =>
    cases k with
    | zero =>
      rw [Memory.writeBytes, Memory.read_writeBytes_other (a + 1) bs (by omega), Nat.add_zero,
        Memory.read_write_same hm]
      rfl
    | succ k =>
      have h' : k < bs.length := by simpa using h
      rw [Memory.writeBytes, show a + (k + 1) = a + 1 + k by omega, ih (Memory.write_wf hm a b) (a + 1) h']
      rfl

@[simp] theorem Memory.length_readBytes (m : Memory) (a n : Nat) : (Memory.readBytes m a n).length = n := by
  induction n generalizing a with
  | zero => rfl
  | succ n ih => simp [Memory.readBytes, ih]

theorem Memory.getElem_readBytes (m : Memory) (a n k : Nat) (h : k < (Memory.readBytes m a n).length) :
    (Memory.readBytes m a n)[k] = Memory.read m (a + k) := by
  induction n generalizing a k with
  | zero => simp [Memory.readBytes] at h
  | succ n ih =>
    cases k with
    | zero => rfl
    | succ k =>
      simp only [Memory.readBytes, List.getElem_cons_succ]
      rw [ih, show a + 1 + k = a + (k + 1) by omega]

/-- A byte of a range read is the byte at its address. -/
theorem Memory.getD_readBytes (m : Memory) (a : Nat) {n k : Nat} (h : k < n) :
    (Memory.readBytes m a n).getD k 0 = Memory.read m (a + k) := by
  have hl : k < (Memory.readBytes m a n).length := by simpa using h
  rw [List.getD_eq_getElem _ _ hl, Memory.getElem_readBytes]

/-! ## The range check -/

/-- No fault exactly when no byte is touched or all of them lie in the 4096 bytes (20_memory.md R63, R77). -/
theorem outOfRange_eq_none {base len : Nat} : outOfRange base len = none ↔ len = 0 ∨ base + len ≤ 4096 := by
  simp only [outOfRange, Config.memSize]; split <;> simp_all

theorem outOfRange_eq_some {base len a : Nat} :
    outOfRange base len = some a ↔ 0 < len ∧ 4096 < base + len ∧ a = max 4096 base := by
  simp only [outOfRange, Config.memSize]; split <;> rename_i h
  · simp; omega
  · simp; omega

theorem withRange_inside {s : State} {i : Instr} {base len : Nat} {t : State} (h : len = 0 ∨ base + len ≤ 4096) :
    withRange s i base len t = .next t := by
  simp only [withRange, outOfRange_eq_none.mpr h]

theorem withRange_outside {s : State} {i : Instr} {base len : Nat} {t : State} (h : 0 < len) (h' : 4096 < base + len) :
    withRange s i base len t = .next (raiseFault s .outOfRangeMemoryAccess (encode i) (max 4096 base)) := by
  simp only [withRange, outOfRange_eq_some.mpr ⟨h, h', rfl⟩]

end Sys2Proof.Machine
end

