-- ==== Sys2Proof/Laws/State.lean ====
section
/-! SUPPORT. One lemma per field per update of the state, each true by rfl, so that no proof unfolds a record update. -/

namespace Sys2Proof.Machine

variable (s : State)


/-! ## setV -/

@[simp] theorem setV_v (r : Reg) (b : Byte) : (setV s r b).v = s.v.set r.toNat b r.isLt := rfl
@[simp] theorem setV_i (r : Reg) (b : Byte) : (setV s r b).i = s.i := rfl
@[simp] theorem setV_pc (r : Reg) (b : Byte) : (setV s r b).pc = s.pc := rfl
@[simp] theorem setV_stack (r : Reg) (b : Byte) : (setV s r b).stack = s.stack := rfl
@[simp] theorem setV_sp (r : Reg) (b : Byte) : (setV s r b).sp = s.sp := rfl
@[simp] theorem setV_dt (r : Reg) (b : Byte) : (setV s r b).dt = s.dt := rfl
@[simp] theorem setV_st (r : Reg) (b : Byte) : (setV s r b).st = s.st := rfl
@[simp] theorem setV_mem (r : Reg) (b : Byte) : (setV s r b).mem = s.mem := rfl
@[simp] theorem setV_key (r : Reg) (b : Byte) : (setV s r b).key = s.key := rfl
@[simp] theorem setV_fb (r : Reg) (b : Byte) : (setV s r b).fb = s.fb := rfl
@[simp] theorem setV_dirty (r : Reg) (b : Byte) : (setV s r b).dirty = s.dirty := rfl
@[simp] theorem setV_mode (r : Reg) (b : Byte) : (setV s r b).mode = s.mode := rfl
@[simp] theorem setV_fault (r : Reg) (b : Byte) : (setV s r b).fault = s.fault := rfl
@[simp] theorem setV_draws (r : Reg) (b : Byte) : (setV s r b).draws = s.draws := rfl
@[simp] theorem setV_agenda (r : Reg) (b : Byte) : (setV s r b).agenda = s.agenda := rfl
@[simp] theorem setV_turns (r : Reg) (b : Byte) : (setV s r b).turns = s.turns := rfl
@[simp] theorem keyDown_setV (r : Reg) (b : Byte) (q : Reg) : keyDown (setV s r b) q = keyDown s q := rfl

/-! ## setI -/

@[simp] theorem setI_v (n : Nat) : (setI s n).v = s.v := rfl
@[simp] theorem setI_i (n : Nat) : (setI s n).i = BitVec.ofNat 16 n := rfl
@[simp] theorem setI_pc (n : Nat) : (setI s n).pc = s.pc := rfl
@[simp] theorem setI_stack (n : Nat) : (setI s n).stack = s.stack := rfl
@[simp] theorem setI_sp (n : Nat) : (setI s n).sp = s.sp := rfl
@[simp] theorem setI_dt (n : Nat) : (setI s n).dt = s.dt := rfl
@[simp] theorem setI_st (n : Nat) : (setI s n).st = s.st := rfl
@[simp] theorem setI_mem (n : Nat) : (setI s n).mem = s.mem := rfl
@[simp] theorem setI_key (n : Nat) : (setI s n).key = s.key := rfl
@[simp] theorem setI_fb (n : Nat) : (setI s n).fb = s.fb := rfl
@[simp] theorem setI_dirty (n : Nat) : (setI s n).dirty = s.dirty := rfl
@[simp] theorem setI_mode (n : Nat) : (setI s n).mode = s.mode := rfl
@[simp] theorem setI_fault (n : Nat) : (setI s n).fault = s.fault := rfl
@[simp] theorem setI_draws (n : Nat) : (setI s n).draws = s.draws := rfl
@[simp] theorem setI_agenda (n : Nat) : (setI s n).agenda = s.agenda := rfl
@[simp] theorem setI_turns (n : Nat) : (setI s n).turns = s.turns := rfl
@[simp] theorem getV_setI (n : Nat) (q : Reg) : getV (setI s n) q = getV s q := rfl
@[simp] theorem keyDown_setI (n : Nat) (q : Reg) : keyDown (setI s n) q = keyDown s q := rfl

/-! ## setDt -/

@[simp] theorem setDt_v (b : Byte) : (setDt s b).v = s.v := rfl
@[simp] theorem setDt_i (b : Byte) : (setDt s b).i = s.i := rfl
@[simp] theorem setDt_pc (b : Byte) : (setDt s b).pc = s.pc := rfl
@[simp] theorem setDt_stack (b : Byte) : (setDt s b).stack = s.stack := rfl
@[simp] theorem setDt_sp (b : Byte) : (setDt s b).sp = s.sp := rfl
@[simp] theorem setDt_dt (b : Byte) : (setDt s b).dt = b := rfl
@[simp] theorem setDt_st (b : Byte) : (setDt s b).st = s.st := rfl
@[simp] theorem setDt_mem (b : Byte) : (setDt s b).mem = s.mem := rfl
@[simp] theorem setDt_key (b : Byte) : (setDt s b).key = s.key := rfl
@[simp] theorem setDt_fb (b : Byte) : (setDt s b).fb = s.fb := rfl
@[simp] theorem setDt_dirty (b : Byte) : (setDt s b).dirty = s.dirty := rfl
@[simp] theorem setDt_mode (b : Byte) : (setDt s b).mode = s.mode := rfl
@[simp] theorem setDt_fault (b : Byte) : (setDt s b).fault = s.fault := rfl
@[simp] theorem setDt_draws (b : Byte) : (setDt s b).draws = s.draws := rfl
@[simp] theorem setDt_agenda (b : Byte) : (setDt s b).agenda = s.agenda := rfl
@[simp] theorem setDt_turns (b : Byte) : (setDt s b).turns = s.turns := rfl
@[simp] theorem getV_setDt (b : Byte) (q : Reg) : getV (setDt s b) q = getV s q := rfl
@[simp] theorem keyDown_setDt (b : Byte) (q : Reg) : keyDown (setDt s b) q = keyDown s q := rfl

/-! ## setSt -/

@[simp] theorem setSt_v (b : Byte) : (setSt s b).v = s.v := rfl
@[simp] theorem setSt_i (b : Byte) : (setSt s b).i = s.i := rfl
@[simp] theorem setSt_pc (b : Byte) : (setSt s b).pc = s.pc := rfl
@[simp] theorem setSt_stack (b : Byte) : (setSt s b).stack = s.stack := rfl
@[simp] theorem setSt_sp (b : Byte) : (setSt s b).sp = s.sp := rfl
@[simp] theorem setSt_dt (b : Byte) : (setSt s b).dt = s.dt := rfl
@[simp] theorem setSt_st (b : Byte) : (setSt s b).st = b := rfl
@[simp] theorem setSt_mem (b : Byte) : (setSt s b).mem = s.mem := rfl
@[simp] theorem setSt_key (b : Byte) : (setSt s b).key = s.key := rfl
@[simp] theorem setSt_fb (b : Byte) : (setSt s b).fb = s.fb := rfl
@[simp] theorem setSt_dirty (b : Byte) : (setSt s b).dirty = s.dirty := rfl
@[simp] theorem setSt_mode (b : Byte) : (setSt s b).mode = s.mode := rfl
@[simp] theorem setSt_fault (b : Byte) : (setSt s b).fault = s.fault := rfl
@[simp] theorem setSt_draws (b : Byte) : (setSt s b).draws = s.draws := rfl
@[simp] theorem setSt_agenda (b : Byte) : (setSt s b).agenda = s.agenda := rfl
@[simp] theorem setSt_turns (b : Byte) : (setSt s b).turns = s.turns := rfl
@[simp] theorem getV_setSt (b : Byte) (q : Reg) : getV (setSt s b) q = getV s q := rfl
@[simp] theorem keyDown_setSt (b : Byte) (q : Reg) : keyDown (setSt s b) q = keyDown s q := rfl

/-! ## complete -/

@[simp] theorem complete_v (n : Nat) : (complete s n).v = s.v := rfl
@[simp] theorem complete_i (n : Nat) : (complete s n).i = s.i := rfl
@[simp] theorem complete_pc (n : Nat) : (complete s n).pc = BitVec.ofNat 16 n := rfl
@[simp] theorem complete_stack (n : Nat) : (complete s n).stack = s.stack := rfl
@[simp] theorem complete_sp (n : Nat) : (complete s n).sp = s.sp := rfl
@[simp] theorem complete_dt (n : Nat) : (complete s n).dt = s.dt := rfl
@[simp] theorem complete_st (n : Nat) : (complete s n).st = s.st := rfl
@[simp] theorem complete_mem (n : Nat) : (complete s n).mem = s.mem := rfl
@[simp] theorem complete_key (n : Nat) : (complete s n).key = s.key := rfl
@[simp] theorem complete_fb (n : Nat) : (complete s n).fb = s.fb := rfl
@[simp] theorem complete_dirty (n : Nat) : (complete s n).dirty = s.dirty := rfl
@[simp] theorem complete_mode (n : Nat) : (complete s n).mode = .running := rfl
@[simp] theorem complete_fault (n : Nat) : (complete s n).fault = s.fault := rfl
@[simp] theorem complete_draws (n : Nat) : (complete s n).draws = s.draws := rfl
@[simp] theorem complete_agenda (n : Nat) : (complete s n).agenda = s.agenda := rfl
@[simp] theorem complete_turns (n : Nat) : (complete s n).turns = s.turns := rfl
@[simp] theorem getV_complete (n : Nat) (q : Reg) : getV (complete s n) q = getV s q := rfl
@[simp] theorem keyDown_complete (n : Nat) (q : Reg) : keyDown (complete s n) q = keyDown s q := rfl

/-! ## completeNext -/

@[simp] theorem completeNext_v : (completeNext s).v = s.v := rfl
@[simp] theorem completeNext_i : (completeNext s).i = s.i := rfl
@[simp] theorem completeNext_pc : (completeNext s).pc = BitVec.ofNat 16 (s.pc.toNat + 2) := rfl
@[simp] theorem completeNext_stack : (completeNext s).stack = s.stack := rfl
@[simp] theorem completeNext_sp : (completeNext s).sp = s.sp := rfl
@[simp] theorem completeNext_dt : (completeNext s).dt = s.dt := rfl
@[simp] theorem completeNext_st : (completeNext s).st = s.st := rfl
@[simp] theorem completeNext_mem : (completeNext s).mem = s.mem := rfl
@[simp] theorem completeNext_key : (completeNext s).key = s.key := rfl
@[simp] theorem completeNext_fb : (completeNext s).fb = s.fb := rfl
@[simp] theorem completeNext_dirty : (completeNext s).dirty = s.dirty := rfl
@[simp] theorem completeNext_mode : (completeNext s).mode = .running := rfl
@[simp] theorem completeNext_fault : (completeNext s).fault = s.fault := rfl
@[simp] theorem completeNext_draws : (completeNext s).draws = s.draws := rfl
@[simp] theorem completeNext_agenda : (completeNext s).agenda = s.agenda := rfl
@[simp] theorem completeNext_turns : (completeNext s).turns = s.turns := rfl
@[simp] theorem getV_completeNext (q : Reg) : getV (completeNext s) q = getV s q := rfl
@[simp] theorem keyDown_completeNext (q : Reg) : keyDown (completeNext s) q = keyDown s q := rfl

/-! ## waitForKey -/

@[simp] theorem waitForKey_v : (waitForKey s).v = s.v := rfl
@[simp] theorem waitForKey_i : (waitForKey s).i = s.i := rfl
@[simp] theorem waitForKey_pc : (waitForKey s).pc = s.pc := rfl
@[simp] theorem waitForKey_stack : (waitForKey s).stack = s.stack := rfl
@[simp] theorem waitForKey_sp : (waitForKey s).sp = s.sp := rfl
@[simp] theorem waitForKey_dt : (waitForKey s).dt = s.dt := rfl
@[simp] theorem waitForKey_st : (waitForKey s).st = s.st := rfl
@[simp] theorem waitForKey_mem : (waitForKey s).mem = s.mem := rfl
@[simp] theorem waitForKey_key : (waitForKey s).key = s.key := rfl
@[simp] theorem waitForKey_fb : (waitForKey s).fb = s.fb := rfl
@[simp] theorem waitForKey_dirty : (waitForKey s).dirty = s.dirty := rfl
@[simp] theorem waitForKey_mode : (waitForKey s).mode = .waitingForKey := rfl
@[simp] theorem waitForKey_fault : (waitForKey s).fault = s.fault := rfl
@[simp] theorem waitForKey_draws : (waitForKey s).draws = s.draws := rfl
@[simp] theorem waitForKey_agenda : (waitForKey s).agenda = s.agenda := rfl
@[simp] theorem waitForKey_turns : (waitForKey s).turns = s.turns := rfl
@[simp] theorem getV_waitForKey (q : Reg) : getV (waitForKey s) q = getV s q := rfl
@[simp] theorem keyDown_waitForKey (q : Reg) : keyDown (waitForKey s) q = keyDown s q := rfl

/-! ## idleState -/

@[simp] theorem idleState_v : (idleState s).v = s.v := rfl
@[simp] theorem idleState_i : (idleState s).i = s.i := rfl
@[simp] theorem idleState_pc : (idleState s).pc = s.pc := rfl
@[simp] theorem idleState_stack : (idleState s).stack = s.stack := rfl
@[simp] theorem idleState_sp : (idleState s).sp = s.sp := rfl
@[simp] theorem idleState_dt : (idleState s).dt = s.dt := rfl
@[simp] theorem idleState_st : (idleState s).st = s.st := rfl
@[simp] theorem idleState_mem : (idleState s).mem = s.mem := rfl
@[simp] theorem idleState_key : (idleState s).key = s.key := rfl
@[simp] theorem idleState_fb : (idleState s).fb = s.fb := rfl
@[simp] theorem idleState_dirty : (idleState s).dirty = s.dirty := rfl
@[simp] theorem idleState_mode : (idleState s).mode = .running := rfl
@[simp] theorem idleState_fault : (idleState s).fault = s.fault := rfl
@[simp] theorem idleState_draws : (idleState s).draws = s.draws := rfl
@[simp] theorem idleState_agenda : (idleState s).agenda = s.agenda := rfl
@[simp] theorem idleState_turns : (idleState s).turns = s.turns := rfl
@[simp] theorem getV_idleState (q : Reg) : getV (idleState s) q = getV s q := rfl
@[simp] theorem keyDown_idleState (q : Reg) : keyDown (idleState s) q = keyDown s q := rfl

/-! ## raiseFault -/

@[simp] theorem raiseFault_v (k : FaultKind) (o : Word) (n : Nat) : (raiseFault s k o n).v = s.v := rfl
@[simp] theorem raiseFault_i (k : FaultKind) (o : Word) (n : Nat) : (raiseFault s k o n).i = s.i := rfl
@[simp] theorem raiseFault_pc (k : FaultKind) (o : Word) (n : Nat) : (raiseFault s k o n).pc = s.pc := rfl
@[simp] theorem raiseFault_stack (k : FaultKind) (o : Word) (n : Nat) : (raiseFault s k o n).stack = s.stack := rfl
@[simp] theorem raiseFault_sp (k : FaultKind) (o : Word) (n : Nat) : (raiseFault s k o n).sp = s.sp := rfl
@[simp] theorem raiseFault_dt (k : FaultKind) (o : Word) (n : Nat) : (raiseFault s k o n).dt = s.dt := rfl
@[simp] theorem raiseFault_st (k : FaultKind) (o : Word) (n : Nat) : (raiseFault s k o n).st = s.st := rfl
@[simp] theorem raiseFault_mem (k : FaultKind) (o : Word) (n : Nat) : (raiseFault s k o n).mem = s.mem := rfl
@[simp] theorem raiseFault_key (k : FaultKind) (o : Word) (n : Nat) : (raiseFault s k o n).key = s.key := rfl
@[simp] theorem raiseFault_fb (k : FaultKind) (o : Word) (n : Nat) : (raiseFault s k o n).fb = s.fb := rfl
@[simp] theorem raiseFault_dirty (k : FaultKind) (o : Word) (n : Nat) : (raiseFault s k o n).dirty = s.dirty := rfl
@[simp] theorem raiseFault_mode (k : FaultKind) (o : Word) (n : Nat) : (raiseFault s k o n).mode = .halted := rfl
@[simp] theorem raiseFault_fault (k : FaultKind) (o : Word) (n : Nat) : (raiseFault s k o n).fault = some ⟨k, o, s.pc, BitVec.ofNat 16 n⟩ := rfl
@[simp] theorem raiseFault_draws (k : FaultKind) (o : Word) (n : Nat) : (raiseFault s k o n).draws = s.draws := rfl
@[simp] theorem raiseFault_agenda (k : FaultKind) (o : Word) (n : Nat) : (raiseFault s k o n).agenda = s.agenda := rfl
@[simp] theorem raiseFault_turns (k : FaultKind) (o : Word) (n : Nat) : (raiseFault s k o n).turns = s.turns := rfl
@[simp] theorem getV_raiseFault (k : FaultKind) (o : Word) (n : Nat) (q : Reg) : getV (raiseFault s k o n) q = getV s q := rfl
@[simp] theorem keyDown_raiseFault (k : FaultKind) (o : Word) (n : Nat) (q : Reg) : keyDown (raiseFault s k o n) q = keyDown s q := rfl

/-! ## setMem -/

@[simp] theorem setMem_v (m : Memory) : (setMem s m).v = s.v := rfl
@[simp] theorem setMem_i (m : Memory) : (setMem s m).i = s.i := rfl
@[simp] theorem setMem_pc (m : Memory) : (setMem s m).pc = s.pc := rfl
@[simp] theorem setMem_stack (m : Memory) : (setMem s m).stack = s.stack := rfl
@[simp] theorem setMem_sp (m : Memory) : (setMem s m).sp = s.sp := rfl
@[simp] theorem setMem_dt (m : Memory) : (setMem s m).dt = s.dt := rfl
@[simp] theorem setMem_st (m : Memory) : (setMem s m).st = s.st := rfl
@[simp] theorem setMem_mem (m : Memory) : (setMem s m).mem = m := rfl
@[simp] theorem setMem_key (m : Memory) : (setMem s m).key = s.key := rfl
@[simp] theorem setMem_fb (m : Memory) : (setMem s m).fb = s.fb := rfl
@[simp] theorem setMem_dirty (m : Memory) : (setMem s m).dirty = s.dirty := rfl
@[simp] theorem setMem_mode (m : Memory) : (setMem s m).mode = s.mode := rfl
@[simp] theorem setMem_fault (m : Memory) : (setMem s m).fault = s.fault := rfl
@[simp] theorem setMem_draws (m : Memory) : (setMem s m).draws = s.draws := rfl
@[simp] theorem setMem_agenda (m : Memory) : (setMem s m).agenda = s.agenda := rfl
@[simp] theorem setMem_turns (m : Memory) : (setMem s m).turns = s.turns := rfl
@[simp] theorem getV_setMem (m : Memory) (q : Reg) : getV (setMem s m) q = getV s q := rfl
@[simp] theorem keyDown_setMem (m : Memory) (q : Reg) : keyDown (setMem s m) q = keyDown s q := rfl

/-! ## setScreen -/

@[simp] theorem setScreen_v (f : Vector (BitVec 64) 32) : (setScreen s f).v = s.v := rfl
@[simp] theorem setScreen_i (f : Vector (BitVec 64) 32) : (setScreen s f).i = s.i := rfl
@[simp] theorem setScreen_pc (f : Vector (BitVec 64) 32) : (setScreen s f).pc = s.pc := rfl
@[simp] theorem setScreen_stack (f : Vector (BitVec 64) 32) : (setScreen s f).stack = s.stack := rfl
@[simp] theorem setScreen_sp (f : Vector (BitVec 64) 32) : (setScreen s f).sp = s.sp := rfl
@[simp] theorem setScreen_dt (f : Vector (BitVec 64) 32) : (setScreen s f).dt = s.dt := rfl
@[simp] theorem setScreen_st (f : Vector (BitVec 64) 32) : (setScreen s f).st = s.st := rfl
@[simp] theorem setScreen_mem (f : Vector (BitVec 64) 32) : (setScreen s f).mem = s.mem := rfl
@[simp] theorem setScreen_key (f : Vector (BitVec 64) 32) : (setScreen s f).key = s.key := rfl
@[simp] theorem setScreen_fb (f : Vector (BitVec 64) 32) : (setScreen s f).fb = f := rfl
@[simp] theorem setScreen_dirty (f : Vector (BitVec 64) 32) : (setScreen s f).dirty = true := rfl
@[simp] theorem setScreen_mode (f : Vector (BitVec 64) 32) : (setScreen s f).mode = s.mode := rfl
@[simp] theorem setScreen_fault (f : Vector (BitVec 64) 32) : (setScreen s f).fault = s.fault := rfl
@[simp] theorem setScreen_draws (f : Vector (BitVec 64) 32) : (setScreen s f).draws = s.draws := rfl
@[simp] theorem setScreen_agenda (f : Vector (BitVec 64) 32) : (setScreen s f).agenda = s.agenda := rfl
@[simp] theorem setScreen_turns (f : Vector (BitVec 64) 32) : (setScreen s f).turns = s.turns := rfl
@[simp] theorem getV_setScreen (f : Vector (BitVec 64) 32) (q : Reg) : getV (setScreen s f) q = getV s q := rfl
@[simp] theorem keyDown_setScreen (f : Vector (BitVec 64) 32) (q : Reg) : keyDown (setScreen s f) q = keyDown s q := rfl

/-! ## setKeys -/

@[simp] theorem setKeys_v (k : BitVec 16) : (setKeys s k).v = s.v := rfl
@[simp] theorem setKeys_i (k : BitVec 16) : (setKeys s k).i = s.i := rfl
@[simp] theorem setKeys_pc (k : BitVec 16) : (setKeys s k).pc = s.pc := rfl
@[simp] theorem setKeys_stack (k : BitVec 16) : (setKeys s k).stack = s.stack := rfl
@[simp] theorem setKeys_sp (k : BitVec 16) : (setKeys s k).sp = s.sp := rfl
@[simp] theorem setKeys_dt (k : BitVec 16) : (setKeys s k).dt = s.dt := rfl
@[simp] theorem setKeys_st (k : BitVec 16) : (setKeys s k).st = s.st := rfl
@[simp] theorem setKeys_mem (k : BitVec 16) : (setKeys s k).mem = s.mem := rfl
@[simp] theorem setKeys_key (k : BitVec 16) : (setKeys s k).key = keyFlags k := rfl
@[simp] theorem setKeys_fb (k : BitVec 16) : (setKeys s k).fb = s.fb := rfl
@[simp] theorem setKeys_dirty (k : BitVec 16) : (setKeys s k).dirty = s.dirty := rfl
@[simp] theorem setKeys_mode (k : BitVec 16) : (setKeys s k).mode = s.mode := rfl
@[simp] theorem setKeys_fault (k : BitVec 16) : (setKeys s k).fault = s.fault := rfl
@[simp] theorem setKeys_draws (k : BitVec 16) : (setKeys s k).draws = s.draws := rfl
@[simp] theorem setKeys_agenda (k : BitVec 16) : (setKeys s k).agenda = s.agenda := rfl
@[simp] theorem setKeys_turns (k : BitVec 16) : (setKeys s k).turns = s.turns := rfl
@[simp] theorem getV_setKeys (k : BitVec 16) (q : Reg) : getV (setKeys s k) q = getV s q := rfl

/-! ## ackDirty -/

@[simp] theorem ackDirty_v : (ackDirty s).v = s.v := rfl
@[simp] theorem ackDirty_i : (ackDirty s).i = s.i := rfl
@[simp] theorem ackDirty_pc : (ackDirty s).pc = s.pc := rfl
@[simp] theorem ackDirty_stack : (ackDirty s).stack = s.stack := rfl
@[simp] theorem ackDirty_sp : (ackDirty s).sp = s.sp := rfl
@[simp] theorem ackDirty_dt : (ackDirty s).dt = s.dt := rfl
@[simp] theorem ackDirty_st : (ackDirty s).st = s.st := rfl
@[simp] theorem ackDirty_mem : (ackDirty s).mem = s.mem := rfl
@[simp] theorem ackDirty_key : (ackDirty s).key = s.key := rfl
@[simp] theorem ackDirty_fb : (ackDirty s).fb = s.fb := rfl
@[simp] theorem ackDirty_dirty : (ackDirty s).dirty = false := rfl
@[simp] theorem ackDirty_mode : (ackDirty s).mode = s.mode := rfl
@[simp] theorem ackDirty_fault : (ackDirty s).fault = s.fault := rfl
@[simp] theorem ackDirty_draws : (ackDirty s).draws = s.draws := rfl
@[simp] theorem ackDirty_agenda : (ackDirty s).agenda = s.agenda := rfl
@[simp] theorem ackDirty_turns : (ackDirty s).turns = s.turns := rfl
@[simp] theorem getV_ackDirty (q : Reg) : getV (ackDirty s) q = getV s q := rfl
@[simp] theorem keyDown_ackDirty (q : Reg) : keyDown (ackDirty s) q = keyDown s q := rfl

/-! ## tick and takeEvent -/

@[simp] theorem tick_v : (tick s).v = s.v := by unfold tick; split <;> rfl
@[simp] theorem tick_i : (tick s).i = s.i := by unfold tick; split <;> rfl
@[simp] theorem tick_pc : (tick s).pc = s.pc := by unfold tick; split <;> rfl
@[simp] theorem tick_stack : (tick s).stack = s.stack := by unfold tick; split <;> rfl
@[simp] theorem tick_sp : (tick s).sp = s.sp := by unfold tick; split <;> rfl
@[simp] theorem tick_mem : (tick s).mem = s.mem := by unfold tick; split <;> rfl
@[simp] theorem tick_key : (tick s).key = s.key := by unfold tick; split <;> rfl
@[simp] theorem tick_fb : (tick s).fb = s.fb := by unfold tick; split <;> rfl
@[simp] theorem tick_dirty : (tick s).dirty = s.dirty := by unfold tick; split <;> rfl
@[simp] theorem tick_mode : (tick s).mode = s.mode := by unfold tick; split <;> rfl
@[simp] theorem tick_fault : (tick s).fault = s.fault := by unfold tick; split <;> rfl
@[simp] theorem tick_draws : (tick s).draws = s.draws := by unfold tick; split <;> rfl
@[simp] theorem tick_agenda : (tick s).agenda = s.agenda := by unfold tick; split <;> rfl
@[simp] theorem tick_turns : (tick s).turns = s.turns := by unfold tick; split <;> rfl
@[simp] theorem getV_tick (q : Reg) : getV (tick s) q = getV s q := by unfold tick; split <;> rfl
@[simp] theorem takeEvent_v : (takeEvent s).v = s.v := by unfold takeEvent; split <;> rfl
@[simp] theorem takeEvent_i : (takeEvent s).i = s.i := by unfold takeEvent; split <;> rfl
@[simp] theorem takeEvent_pc : (takeEvent s).pc = s.pc := by unfold takeEvent; split <;> rfl
@[simp] theorem takeEvent_stack : (takeEvent s).stack = s.stack := by unfold takeEvent; split <;> rfl
@[simp] theorem takeEvent_sp : (takeEvent s).sp = s.sp := by unfold takeEvent; split <;> rfl
@[simp] theorem takeEvent_dt : (takeEvent s).dt = s.dt := by unfold takeEvent; split <;> rfl
@[simp] theorem takeEvent_st : (takeEvent s).st = s.st := by unfold takeEvent; split <;> rfl
@[simp] theorem takeEvent_mem : (takeEvent s).mem = s.mem := by unfold takeEvent; split <;> rfl
@[simp] theorem takeEvent_key : (takeEvent s).key = s.key := by unfold takeEvent; split <;> rfl
@[simp] theorem takeEvent_fb : (takeEvent s).fb = s.fb := by unfold takeEvent; split <;> rfl
@[simp] theorem takeEvent_dirty : (takeEvent s).dirty = s.dirty := by unfold takeEvent; split <;> rfl
@[simp] theorem takeEvent_mode : (takeEvent s).mode = s.mode := by unfold takeEvent; split <;> rfl
@[simp] theorem takeEvent_fault : (takeEvent s).fault = s.fault := by unfold takeEvent; split <;> rfl
@[simp] theorem takeEvent_draws : (takeEvent s).draws = s.draws := by unfold takeEvent; split <;> rfl
@[simp] theorem getV_takeEvent (q : Reg) : getV (takeEvent s) q = getV s q := by unfold takeEvent; split <;> rfl
@[simp] theorem keyDown_takeEvent (q : Reg) : keyDown (takeEvent s) q = keyDown s q := by unfold takeEvent; split <;> rfl
@[simp] theorem fetch_takeEvent : fetch (takeEvent s) = fetch s := by unfold takeEvent; split <;> rfl

/-! ## drawByte -/

@[simp] theorem drawByte_fst : (drawByte s).1 = Config.randomByte s.draws := rfl
@[simp] theorem drawByte_v : (drawByte s).2.v = s.v := rfl
@[simp] theorem drawByte_i : (drawByte s).2.i = s.i := rfl
@[simp] theorem drawByte_pc : (drawByte s).2.pc = s.pc := rfl
@[simp] theorem drawByte_stack : (drawByte s).2.stack = s.stack := rfl
@[simp] theorem drawByte_sp : (drawByte s).2.sp = s.sp := rfl
@[simp] theorem drawByte_dt : (drawByte s).2.dt = s.dt := rfl
@[simp] theorem drawByte_st : (drawByte s).2.st = s.st := rfl
@[simp] theorem drawByte_mem : (drawByte s).2.mem = s.mem := rfl
@[simp] theorem drawByte_key : (drawByte s).2.key = s.key := rfl
@[simp] theorem drawByte_fb : (drawByte s).2.fb = s.fb := rfl
@[simp] theorem drawByte_dirty : (drawByte s).2.dirty = s.dirty := rfl
@[simp] theorem drawByte_mode : (drawByte s).2.mode = s.mode := rfl
@[simp] theorem drawByte_fault : (drawByte s).2.fault = s.fault := rfl
@[simp] theorem drawByte_draws : (drawByte s).2.draws = s.draws + 1 := rfl
@[simp] theorem drawByte_agenda : (drawByte s).2.agenda = s.agenda := rfl
@[simp] theorem drawByte_turns : (drawByte s).2.turns = s.turns := rfl
@[simp] theorem getV_drawByte (q : Reg) : getV (drawByte s).2 q = getV s q := rfl

/-! ## setVAndFlag -/

@[simp] theorem setVAndFlag_i (x : Reg) (b c : Byte) : (setVAndFlag s x b c).i = s.i := rfl
@[simp] theorem setVAndFlag_pc (x : Reg) (b c : Byte) : (setVAndFlag s x b c).pc = s.pc := rfl
@[simp] theorem setVAndFlag_stack (x : Reg) (b c : Byte) : (setVAndFlag s x b c).stack = s.stack := rfl
@[simp] theorem setVAndFlag_sp (x : Reg) (b c : Byte) : (setVAndFlag s x b c).sp = s.sp := rfl
@[simp] theorem setVAndFlag_dt (x : Reg) (b c : Byte) : (setVAndFlag s x b c).dt = s.dt := rfl
@[simp] theorem setVAndFlag_st (x : Reg) (b c : Byte) : (setVAndFlag s x b c).st = s.st := rfl
@[simp] theorem setVAndFlag_mem (x : Reg) (b c : Byte) : (setVAndFlag s x b c).mem = s.mem := rfl
@[simp] theorem setVAndFlag_key (x : Reg) (b c : Byte) : (setVAndFlag s x b c).key = s.key := rfl
@[simp] theorem setVAndFlag_fb (x : Reg) (b c : Byte) : (setVAndFlag s x b c).fb = s.fb := rfl
@[simp] theorem setVAndFlag_dirty (x : Reg) (b c : Byte) : (setVAndFlag s x b c).dirty = s.dirty := rfl
@[simp] theorem setVAndFlag_mode (x : Reg) (b c : Byte) : (setVAndFlag s x b c).mode = s.mode := rfl
@[simp] theorem setVAndFlag_fault (x : Reg) (b c : Byte) : (setVAndFlag s x b c).fault = s.fault := rfl
@[simp] theorem setVAndFlag_draws (x : Reg) (b c : Byte) : (setVAndFlag s x b c).draws = s.draws := rfl
@[simp] theorem setVAndFlag_agenda (x : Reg) (b c : Byte) : (setVAndFlag s x b c).agenda = s.agenda := rfl
@[simp] theorem setVAndFlag_turns (x : Reg) (b c : Byte) : (setVAndFlag s x b c).turns = s.turns := rfl
@[simp] theorem keyDown_setVAndFlag (x : Reg) (b c : Byte) (q : Reg) : keyDown (setVAndFlag s x b c) q = keyDown s q := rfl

/-! ## Reading registers after writing them -/

@[simp] theorem getV_setV_same (r : Reg) (b : Byte) : getV (setV s r b) r = b := by
  simp [getV]

theorem getV_setV (r q : Reg) (b : Byte) : getV (setV s r b) q = if q = r then b else getV s q := by
  by_cases h : q = r
  · simp [h]
  · have hn : r.toNat ≠ q.toNat := fun e => h (BitVec.eq_of_toNat_eq e.symm)
    simp [getV, h, Vector.getElem_set_ne, hn]

theorem getV_setV_other {r q : Reg} (b : Byte) (h : q ≠ r) : getV (setV s r b) q = getV s q := by
  simp [getV_setV, h]

/-- What `setVAndFlag` leaves in every register: the flag in `VF`, else the result in `V[x]` (R127). -/
theorem getV_setVAndFlag (x q : Reg) (b c : Byte) :
    getV (setVAndFlag s x b c) q = if q = 0xF then c else if q = x then b else getV s q := by
  simp only [setVAndFlag, getV_setV, regVF]

/-! ## loadRegs -/

theorem loadRegs_keeps (bs : List Byte) (k : Nat) :
    loadRegs s k bs = { s with v := (loadRegs s k bs).v } := by
  induction bs generalizing s k with
  | nil => rfl
  | cons b bs ih => rw [loadRegs, ih]; rfl

@[simp] theorem loadRegs_i (k : Nat) (bs : List Byte) : (loadRegs s k bs).i = s.i := by rw [loadRegs_keeps]
@[simp] theorem loadRegs_pc (k : Nat) (bs : List Byte) : (loadRegs s k bs).pc = s.pc := by rw [loadRegs_keeps]
@[simp] theorem loadRegs_stack (k : Nat) (bs : List Byte) : (loadRegs s k bs).stack = s.stack := by rw [loadRegs_keeps]
@[simp] theorem loadRegs_sp (k : Nat) (bs : List Byte) : (loadRegs s k bs).sp = s.sp := by rw [loadRegs_keeps]
@[simp] theorem loadRegs_dt (k : Nat) (bs : List Byte) : (loadRegs s k bs).dt = s.dt := by rw [loadRegs_keeps]
@[simp] theorem loadRegs_st (k : Nat) (bs : List Byte) : (loadRegs s k bs).st = s.st := by rw [loadRegs_keeps]
@[simp] theorem loadRegs_mem (k : Nat) (bs : List Byte) : (loadRegs s k bs).mem = s.mem := by rw [loadRegs_keeps]
@[simp] theorem loadRegs_key (k : Nat) (bs : List Byte) : (loadRegs s k bs).key = s.key := by rw [loadRegs_keeps]
@[simp] theorem loadRegs_fb (k : Nat) (bs : List Byte) : (loadRegs s k bs).fb = s.fb := by rw [loadRegs_keeps]
@[simp] theorem loadRegs_dirty (k : Nat) (bs : List Byte) : (loadRegs s k bs).dirty = s.dirty := by rw [loadRegs_keeps]
@[simp] theorem loadRegs_mode (k : Nat) (bs : List Byte) : (loadRegs s k bs).mode = s.mode := by rw [loadRegs_keeps]
@[simp] theorem loadRegs_fault (k : Nat) (bs : List Byte) : (loadRegs s k bs).fault = s.fault := by rw [loadRegs_keeps]
@[simp] theorem loadRegs_draws (k : Nat) (bs : List Byte) : (loadRegs s k bs).draws = s.draws := by rw [loadRegs_keeps]
@[simp] theorem loadRegs_agenda (k : Nat) (bs : List Byte) : (loadRegs s k bs).agenda = s.agenda := by rw [loadRegs_keeps]
@[simp] theorem loadRegs_turns (k : Nat) (bs : List Byte) : (loadRegs s k bs).turns = s.turns := by rw [loadRegs_keeps]

/-- What `loadRegs` leaves in every register: the byte of its place in the list, or what it held (R195). -/
theorem getV_loadRegs (k : Nat) (bs : List Byte) (h : k + bs.length ≤ 16) (q : Reg) :
    getV (loadRegs s k bs) q =
      if k ≤ q.toNat ∧ q.toNat < k + bs.length then bs.getD (q.toNat - k) 0 else getV s q := by
  induction bs generalizing s k with
  | nil => simp [loadRegs]
  | cons b bs ih =>
    simp only [List.length_cons] at h
    have hk : (BitVec.ofNat 4 k).toNat = k := by simp; omega
    rw [loadRegs, ih _ _ (by omega), getV_setV]
    rcases Nat.lt_trichotomy q.toNat k with hq | hq | hq
    · have hne : q ≠ BitVec.ofNat 4 k := fun e => by rw [e, hk] at hq; omega
      rw [if_neg (by omega), if_neg hne, if_neg (by simp only [List.length_cons]; omega)]
    · have he : q = BitVec.ofNat 4 k := BitVec.eq_of_toNat_eq (by rw [hk, hq])
      rw [if_neg (by omega), if_pos he, if_pos (by simp only [List.length_cons]; omega), hq]
      simp
    · have hne : q ≠ BitVec.ofNat 4 k := fun e => by rw [e, hk] at hq; omega
      obtain ⟨d, hd⟩ : ∃ d, q.toNat - k = d + 1 := ⟨q.toNat - k - 1, by omega⟩
      by_cases hin : q.toNat < k + 1 + bs.length
      · rw [if_pos (by omega), if_pos (by simp only [List.length_cons]; omega), hd]
        have : q.toNat - (k + 1) = d := by omega
        simp [this]
      · rw [if_neg (by omega), if_neg hne, if_neg (by simp only [List.length_cons]; omega)]

end Sys2Proof.Machine
end

