-- ==== Sys2Proof/Laws/Ops.lean ====
section
/-! SUPPORT. What each shared operation can do, once: the stack, the frame buffer, the keys, the register ranges, the
fetch and the step. -/

namespace Sys2Proof.Machine

/-! ## Call stack -/

/-- A push either finds the stack full or stores `PC` at `SP` and increments `SP` (10_state.md R25). -/
theorem pushPc_cases (s : State) :
    (s.sp.val = 16 ∧ pushPc s = none) ∨
    ∃ h : s.sp.val < 16,
      pushPc s = some { s with stack := s.stack.set s.sp.val s.pc h, sp := ⟨s.sp.val + 1, by omega⟩ } := by
  by_cases h : s.sp.val < 16
  · exact .inr ⟨h, by simp only [pushPc, dif_pos h]⟩
  · exact .inl ⟨by omega, by simp only [pushPc, dif_neg h]⟩

/-- A pop either finds the stack empty or decrements `SP` and loads the entry there, which keeps its contents (R24,
R25). -/
theorem popPc_cases (s : State) :
    (s.sp.val = 0 ∧ popPc s = none) ∨
    ∃ h : 0 < s.sp.val,
      popPc s = some (s.stack[s.sp.val - 1]'(by omega), { s with sp := ⟨s.sp.val - 1, by omega⟩ }) := by
  by_cases h : 0 < s.sp.val
  · exact .inr ⟨h, by simp only [popPc, dif_pos h]⟩
  · exact .inl ⟨by omega, by simp only [popPc, dif_neg h]⟩

/-! ## Frame buffer -/

/-- One flip changes the one cell. -/
theorem pixel_flipPixel (fb : Vector (BitVec 64) 32) (x cx : Fin 64) (y cy : Fin 32) :
    pixel (flipPixel fb x y) cx cy = (pixel fb cx cy ^^ decide (x = cx ∧ y = cy)) := by
  by_cases hy : y = cy
  · subst hy
    by_cases hx : x = cx
    · subst hx; simp [pixel, flipPixel]
    · have : x.val ≠ cx.val := fun e => hx (Fin.ext e)
      simp [pixel, flipPixel, hx, Ne.symm this]
  · have : y.val ≠ cy.val := fun e => hy (Fin.ext e)
    simp [pixel, flipPixel, hy, Vector.getElem_set_ne, this]

@[simp] theorem pixel_blankScreen (x : Fin 64) (y : Fin 32) : pixel blankScreen x y = false := by
  simp [pixel, blankScreen]

/-- The whole draw flips each cell as often as it is listed (44_display.md R211). -/
theorem pixel_blit (fb : Vector (BitVec 64) 32) (hit : Bool) (cs : List (Fin 64 × Fin 32)) (x : Fin 64) (y : Fin 32) :
    pixel (blit fb hit cs).1 x y = (pixel fb x y ^^ decide (cs.count (x, y) % 2 = 1)) := by
  induction cs generalizing fb hit with
  | nil => simp [blit]
  | cons c cs ih =>
    obtain ⟨cx, cy⟩ := c
    rw [blit, ih, pixel_flipPixel, List.count_cons]
    by_cases h : cx = x ∧ cy = y
    · obtain ⟨rfl, rfl⟩ := h
      rcases Nat.mod_two_eq_zero_or_one (cs.count (cx, cy)) with hm | hm <;>
        simp [hm, Nat.add_mod]
    · have hne : ((cx, cy) == (x, y)) = false := by simpa using fun a => fun b => h ⟨a, b⟩
      simp [h, hne]

/-- With no cell listed twice, the draw flips exactly the cells listed. -/
theorem pixel_blit_nodup (fb : Vector (BitVec 64) 32) (hit : Bool) {cs : List (Fin 64 × Fin 32)} (hn : cs.Nodup)
    (x : Fin 64) (y : Fin 32) : pixel (blit fb hit cs).1 x y = (pixel fb x y ^^ decide ((x, y) ∈ cs)) := by
  rw [pixel_blit, hn.count]
  by_cases h : (x, y) ∈ cs <;> simp [h]

/-- With no cell listed twice, the collision is that some listed cell was on before the draw (R211, R213). -/
theorem blit_hit_nodup (fb : Vector (BitVec 64) 32) (hit : Bool) {cs : List (Fin 64 × Fin 32)} (hn : cs.Nodup) :
    (blit fb hit cs).2 = (hit || cs.any fun c => pixel fb c.1 c.2) := by
  induction cs generalizing fb hit with
  | nil => simp [blit]
  | cons c cs ih =>
    obtain ⟨hc, hcs⟩ := List.nodup_cons.mp hn
    rw [blit, ih _ _ hcs, List.any_cons, Bool.or_assoc]
    congr 2
    rw [List.any_eq, List.any_eq]
    apply Bool.decide_congr
    refine exists_congr fun d => and_congr_right fun hd => ?_
    have hne : ¬(c.1 = d.1 ∧ c.2 = d.2) := fun e => hc (by rw [Prod.ext e.1 e.2]; exact hd)
    simp [pixel_flipPixel, hne]

/-- The cells of one sprite row: one for each set bit, bit `7 - k` at offset `k` (R212). -/
theorem mem_rowCells {x0 y0 row : Nat} {b : Byte} {c : Fin 64 × Fin 32} :
    c ∈ rowCells x0 y0 row b ↔
      ∃ k, k < 8 ∧ b.getLsbD (7 - k) = true ∧ (x0 + k) % 64 = c.1.val ∧ (y0 + row) % 32 = c.2.val := by
  simp only [rowCells, List.mem_map, List.mem_filter, List.mem_range, Prod.ext_iff, Fin.ext_iff, Fin.val_ofNat]
  constructor
  · rintro ⟨k, ⟨hk, hb⟩, h1, h2⟩; exact ⟨k, hk, hb, h1, h2⟩
  · rintro ⟨k, hk, hb, h1, h2⟩; exact ⟨k, ⟨hk, hb⟩, h1, h2⟩

/-- The cells of a sprite: one for each set bit of each row (R211). -/
theorem mem_spriteCells {x0 y0 row : Nat} {bs : List Byte} {c : Fin 64 × Fin 32} :
    c ∈ spriteCells x0 y0 row bs ↔
      ∃ j k, ∃ h : j < bs.length, k < 8 ∧ bs[j].getLsbD (7 - k) = true ∧
        (x0 + k) % 64 = c.1.val ∧ (y0 + (row + j)) % 32 = c.2.val := by
  induction bs generalizing row with
  | nil => simp [spriteCells]
  | cons b bs ih =>
    rw [spriteCells, List.mem_append, mem_rowCells, ih]
    constructor
    · rintro (⟨k, hk, hb, h1, h2⟩ | ⟨j, k, hj, hk, hb, h1, h2⟩)
      · exact ⟨0, k, by simp, hk, hb, h1, h2⟩
      · exact ⟨j + 1, k, by simpa using hj, hk, hb, h1, by rw [← h2]; congr 1; omega⟩
    · rintro ⟨j, k, hj, hk, hb, h1, h2⟩
      cases j with
      | zero => exact .inl ⟨k, hk, hb, h1, h2⟩
      | succ j => exact .inr ⟨j, k, by simpa using hj, hk, hb, h1, by rw [← h2]; congr 1; omega⟩

/-- The cells of `DXYN`'s sprite are those it covers (R211, R212). -/
theorem mem_drawnCells {s : State} {x y : Reg} {n : Nibble} {c : Fin 64 × Fin 32} :
    c ∈ drawnCells s x y n ↔ spriteCovers s x y n c.1 c.2 := by
  rw [drawnCells, mem_spriteCells]
  constructor
  · rintro ⟨j, k, h, hk, hb, h1, h2⟩
    rw [Memory.getElem_readBytes] at hb
    exact ⟨j, k, ⟨by simpa using h, hk, hb⟩, h1, by simpa using h2⟩
  · rintro ⟨j, k, ⟨h, hk, hb⟩, h1, h2⟩
    exact ⟨j, k, by simpa using h, hk, by rw [Memory.getElem_readBytes]; exact hb, h1, by simpa using h2⟩

/-! ## Register ranges and digits -/

/-- A difference as a number (42_alu.md R172). -/
theorem toNat_differenceByte (a b : Byte) : (differenceByte a b).toNat = (a.toNat + 256 - b.toNat) % 256 := by
  have := b.isLt
  simp [differenceByte]; omega

/-- Loading registers does not depend on the mode. -/
theorem loadRegs_withMode (s : State) (m : Mode) (k : Nat) (bs : List Byte) :
    loadRegs { s with mode := m } k bs = { loadRegs s k bs with mode := m } := by
  induction bs generalizing s k with
  | nil => rfl
  | cons b bs ih => exact ih (setV s (BitVec.ofNat 4 k) b) (k + 1)

@[simp] theorem length_regRange (s : State) (x : Reg) : (regRange s x).length = x.toNat + 1 := by
  simp [regRange, regCount]

theorem getElem_regRange (s : State) (x : Reg) (k : Nat) (h : k < (regRange s x).length) :
    (regRange s x)[k] = getV s (BitVec.ofNat 4 k) := by
  simp [regRange]

@[simp] theorem indexAfterMemop_eq (s : State) (x : Reg) : indexAfterMemop s x = s.i.toNat := rfl

@[simp] theorem length_bcdDigits (v : Byte) : (bcdDigits v).length = 3 := rfl

/-! ## Keys -/

/-- The key operand is `V[X]` when it is at most 15, none otherwise (45_keypad_timers.md R230). -/
theorem keyOperand_cases (s : State) (x : Reg) :
    (15 < (getV s x).toNat ∧ keyOperand s x = none) ∨
    ((getV s x).toNat ≤ 15 ∧ keyOperand s x = some (BitVec.ofNat 4 (getV s x).toNat)) := by
  by_cases h : (getV s x).toNat > 15
  · exact .inl ⟨h, by simp [keyOperand, h]⟩
  · exact .inr ⟨by omega, by simp [keyOperand, h]⟩

theorem mem_keyIndices (k : Reg) : k ∈ keyIndices :=
  List.mem_map.mpr ⟨k.toNat, List.mem_range.mpr k.isLt, by simp⟩

/-- `FX0A`'s key: none exactly when no key is down, else the least index down (R232). -/
theorem pressedKey_eq_none {s : State} : pressedKey s = none ↔ ∀ k, keyDown s k = false := by
  simp only [pressedKey, List.find?_eq_none, Bool.not_eq_true]
  exact ⟨fun h k => h k (mem_keyIndices k), fun h k _ => h k⟩

theorem pressedKey_eq_some {s : State} {k : Reg} (h : pressedKey s = some k) :
    keyDown s k = true ∧ ∀ j : Reg, j.toNat < k.toNat → keyDown s j = false := by
  have hk : keyIndices.find? (keyDown s) = some k := h
  obtain ⟨hd, as, bs, he, hn⟩ := List.find?_eq_some_iff_append.mp hk
  refine ⟨hd, fun j hj => ?_⟩
  have hlen : ∀ n, (hn' : n < 16) → keyIndices[n]? = some (BitVec.ofNat 4 n) := fun n hn' => by
    simp [keyIndices, List.getElem?_range hn']
  have ha : as.length < 16 := by
    have : keyIndices.length = 16 := by simp [keyIndices]
    rw [he] at this; simp at this; omega
  have hka : k = BitVec.ofNat 4 as.length := by
    have := hlen as.length ha
    rw [he] at this; simpa using this
  have hkn : k.toNat = as.length := by rw [hka]; simp; omega
  have hj' := hlen j.toNat j.isLt
  rw [he, List.getElem?_append_left (by omega)] at hj'
  have hm : j ∈ as := by
    have := List.mem_of_getElem? hj'; simpa using this
  simpa using hn j hm

/-- `SetKeys(k)` sets each flag to its bit (60_exceptions.md R263). -/
theorem keyDown_setKeys (s : State) (k : BitVec 16) (q : Reg) : keyDown (setKeys s k) q = k.getLsbD q.toNat := by
  have h : ∀ n (hn : n < 16), (keyFlags k)[n] = k.getLsbD n := fun n hn => by
    interval_cases n <;> rfl
  exact h q.toNat q.isLt

/-! ## Timers -/

/-- The count-down as a number (60_exceptions.md R260). -/
@[simp] theorem toNat_countDown (b : Byte) : (countDown b).toNat = b.toNat - 1 := by
  have := b.isLt
  simp [countDown]; omega

/-! ## Fetch and step -/

/-- The fetch faults exactly when one of the two bytes is out of range (40_step_cycle.md R121). -/
theorem fetch_cases (s : State) :
    (s.pc.toNat ≤ 0xFFE ∧ fetch s = .ok (Memory.readWord s.mem s.pc.toNat)) ∨
    (0xFFE < s.pc.toNat ∧ fetch s = .error (max 4096 s.pc.toNat)) := by
  by_cases h : s.pc.toNat ≤ 0xFFE
  · exact .inl ⟨h, by simp only [fetch, outOfRange_eq_none.mpr (.inr (by omega : s.pc.toNat + 2 ≤ 4096))]⟩
  · exact .inr ⟨by omega, by
      simp only [fetch, outOfRange_eq_some.mpr ⟨by omega, (by omega : 4096 < s.pc.toNat + 2), rfl⟩]⟩

@[simp] theorem unknownOpcode_eq (s : State) (w : Word) : unknownOpcode s w = raiseFault s .unknownOpcode w 0 := rfl

/-- What a `Step` of the engine is, once: nothing in `Halted`, a fetch fault, an instruction, or an unknown word
(R126). -/
theorem engineStep_cases (s : State) :
    (s.mode = .halted ∧ engineStep s = .next s) ∨
    (s.mode ≠ .halted ∧ 0xFFE < s.pc.toNat ∧
      engineStep s = .next (raiseFault s .outOfRangeMemoryAccess 0 (max 4096 s.pc.toNat))) ∨
    (s.mode ≠ .halted ∧ s.pc.toNat ≤ 0xFFE ∧ ∃ i, decode (Memory.readWord s.mem s.pc.toNat) = .ok i ∧
      engineStep s = exec i s) ∨
    (s.mode ≠ .halted ∧ s.pc.toNat ≤ 0xFFE ∧ (∃ e, decode (Memory.readWord s.mem s.pc.toNat) = .error e) ∧
      engineStep s = .next (raiseFault s .unknownOpcode (Memory.readWord s.mem s.pc.toNat) 0)) := by
  have hrun : s.mode ≠ .halted → engineStep s = fetchAndPerform s := fun h => by
    unfold engineStep; split <;> simp_all
  by_cases hm : s.mode = .halted
  · exact .inl ⟨hm, by simp [engineStep, hm]⟩
  · right
    rw [hrun hm]
    rcases fetch_cases s with ⟨hp, hf⟩ | ⟨hp, hf⟩
    · right
      simp only [fetchAndPerform, hf, performWord]
      cases hd : decode (Memory.readWord s.mem s.pc.toNat) with
      | ok i => exact .inl ⟨hm, hp, i, rfl, rfl⟩
      | error e => exact .inr ⟨hm, hp, ⟨e, rfl⟩, rfl⟩
    · exact .inl ⟨hm, hp, by simp only [fetchAndPerform, hf]⟩

/-- Outside `Halted` a report is that of a fetch (R120). -/
theorem stepReport_of_running {s : State} (h : s.mode ≠ .halted) : stepReport s = fetchReport s := by
  unfold stepReport; split <;> simp_all

/-- The step is the oldest event lined up, or the environment's free choice when none is (00_scope.md R5,
60_exceptions.md R261). -/
theorem step_cases (s : State) :
    (s.agenda = [] ∧
      step s = performEvent { s with turns := s.turns + 1 } (allowedEvent (Config.environment s.turns))) ∨
    ∃ e rest, s.agenda = e :: rest ∧ step s = performEvent { s with agenda := rest } e := by
  cases h : s.agenda with
  | nil => exact .inl ⟨rfl, by simp [step, nextEvent, takeEvent, upcoming, h]⟩
  | cons e rest => exact .inr ⟨e, rest, rfl, by simp [step, nextEvent, takeEvent, upcoming, h]⟩

/-- A run that starts with a step is the run of one step fewer from the state after it. -/
theorem core_run_succ {s t : State} (h : step s = .next t) (n : Nat) :
    Host.Core.run Sys2Proof.core (n + 1) s = Host.Core.run Sys2Proof.core n t := by
  have h' : Sys2Proof.core.step s = .next t := h
  simp only [Host.Core.run, h']

/-- The limit on the environment's choice changes no event but an over-long reset
(93_implementation_defined.md U10). -/
theorem allowedEvent_of_short {e : Event} (h : ∀ rom, e = .reset rom → rom.length ≤ 3584) : allowedEvent e = e := by
  cases e with
  | reset rom => simp only [allowedEvent, Config.programMax, List.take_of_length_le (h rom rfl)]
  | step => rfl
  | tick => rfl
  | setKeys k => rfl
  | ackDirty => rfl

/-- No image the environment chooses is too long. -/
theorem allowedEvent_reset_le {e : Event} {rom : List Byte} (h : allowedEvent e = .reset rom) : rom.length ≤ 3584 := by
  cases e <;> simp only [allowedEvent, reduceCtorEq, Event.reset.injEq, Config.programMax] at h
  subst h
  exact List.length_take_le _ _

/-- A reset either answers the reset state with the image in memory, or is refused for its length
(70_reset_and_hazards.md R292). -/
theorem resetEngine_cases (s : State) (rom : List Byte) :
    (rom.length ≤ 3584 ∧ resetEngine s rom =
      .next { State.reset with mem := imageMemory rom, draws := s.draws, agenda := s.agenda, turns := s.turns }) ∨
    (3584 < rom.length ∧ resetEngine s rom = .refused .imageTooLong) := by
  by_cases h : rom.length ≤ 3584
  · exact .inl ⟨h, by simp only [resetEngine, Config.programMax, if_pos h]⟩
  · exact .inr ⟨by omega, by simp only [resetEngine, Config.programMax, if_neg h]⟩

/-- Outside the image, memory after a reset holds its reset bytes (20_memory.md R62). -/
theorem read_imageMemory_outside (rom : List Byte) {a : Nat} (h : a < 0x200 ∨ 0x200 + rom.length ≤ a) :
    Memory.read (imageMemory rom) a = resetByte a := by
  rw [imageMemory, Memory.read_writeBytes_other _ _ (by simp only [Config.programBase]; omega)]; rfl

end Sys2Proof.Machine
end

