-- ==== Sys2Proof/Laws/PerInstr.lean ====
section
/-! SUPPORT. Facts about every instruction as syntax, one lemma per constructor. Family `RowMatch`: the word of an
instruction matches its row's mask and match columns in the opcode map (30_encoding.md R95). -/

namespace Sys2Proof.Laws.RowMatch

/-- The encoder's word, under its row's mask, is its row's match value. -/
def Statement (i : Instr) : Prop := encode i &&& (rowOf i).1 = (rowOf i).2

theorem idle : Statement .idle :=
  rfl
theorem cls : Statement .cls :=
  rfl
theorem ret : Statement .ret :=
  rfl
theorem jp (nnn : Addr) : Statement (.jp nnn) :=
  (and_maskF000 _ 0x1).mpr (opField_wordNNN _ _)
theorem call (nnn : Addr) : Statement (.call nnn) :=
  (and_maskF000 _ 0x2).mpr (opField_wordNNN _ _)
theorem sei (x : Reg) (nn : Byte) : Statement (.sei x nn) :=
  (and_maskF000 _ 0x3).mpr (opField_wordXNN _ _ _)
theorem snei (x : Reg) (nn : Byte) : Statement (.snei x nn) :=
  (and_maskF000 _ 0x4).mpr (opField_wordXNN _ _ _)
theorem ser (x : Reg) (y : Reg) : Statement (.ser x y) :=
  (and_maskF00F _ 0x5 0x0).mpr ⟨opField_wordXYN _ _ _ _, nField_wordXYN _ _ _ _⟩
theorem ldi (x : Reg) (nn : Byte) : Statement (.ldi x nn) :=
  (and_maskF000 _ 0x6).mpr (opField_wordXNN _ _ _)
theorem addi (x : Reg) (nn : Byte) : Statement (.addi x nn) :=
  (and_maskF000 _ 0x7).mpr (opField_wordXNN _ _ _)
theorem mov (x : Reg) (y : Reg) : Statement (.mov x y) :=
  (and_maskF00F _ 0x8 0x0).mpr ⟨opField_wordXYN _ _ _ _, nField_wordXYN _ _ _ _⟩
theorem or (x : Reg) (y : Reg) : Statement (.or x y) :=
  (and_maskF00F _ 0x8 0x1).mpr ⟨opField_wordXYN _ _ _ _, nField_wordXYN _ _ _ _⟩
theorem and (x : Reg) (y : Reg) : Statement (.and x y) :=
  (and_maskF00F _ 0x8 0x2).mpr ⟨opField_wordXYN _ _ _ _, nField_wordXYN _ _ _ _⟩
theorem xor (x : Reg) (y : Reg) : Statement (.xor x y) :=
  (and_maskF00F _ 0x8 0x3).mpr ⟨opField_wordXYN _ _ _ _, nField_wordXYN _ _ _ _⟩
theorem add (x : Reg) (y : Reg) : Statement (.add x y) :=
  (and_maskF00F _ 0x8 0x4).mpr ⟨opField_wordXYN _ _ _ _, nField_wordXYN _ _ _ _⟩
theorem sub (x : Reg) (y : Reg) : Statement (.sub x y) :=
  (and_maskF00F _ 0x8 0x5).mpr ⟨opField_wordXYN _ _ _ _, nField_wordXYN _ _ _ _⟩
theorem shr (x : Reg) (y : Reg) : Statement (.shr x y) :=
  (and_maskF00F _ 0x8 0x6).mpr ⟨opField_wordXYN _ _ _ _, nField_wordXYN _ _ _ _⟩
theorem subn (x : Reg) (y : Reg) : Statement (.subn x y) :=
  (and_maskF00F _ 0x8 0x7).mpr ⟨opField_wordXYN _ _ _ _, nField_wordXYN _ _ _ _⟩
theorem shl (x : Reg) (y : Reg) : Statement (.shl x y) :=
  (and_maskF00F _ 0x8 0xe).mpr ⟨opField_wordXYN _ _ _ _, nField_wordXYN _ _ _ _⟩
theorem sner (x : Reg) (y : Reg) : Statement (.sner x y) :=
  (and_maskF00F _ 0x9 0x0).mpr ⟨opField_wordXYN _ _ _ _, nField_wordXYN _ _ _ _⟩
theorem ldix (nnn : Addr) : Statement (.ldix nnn) :=
  (and_maskF000 _ 0xa).mpr (opField_wordNNN _ _)
theorem jpv0 (nnn : Addr) : Statement (.jpv0 nnn) :=
  (and_maskF000 _ 0xb).mpr (opField_wordNNN _ _)
theorem rnd (x : Reg) (nn : Byte) : Statement (.rnd x nn) :=
  (and_maskF000 _ 0xc).mpr (opField_wordXNN _ _ _)
theorem drw (x : Reg) (y : Reg) (n : Nibble) : Statement (.drw x y n) :=
  (and_maskF000 _ 0xd).mpr (opField_wordXYN _ _ _ _)
theorem skp (x : Reg) : Statement (.skp x) :=
  (and_maskF0FF _ 0xe 0x9e).mpr ⟨opField_wordXNN _ _ _, nnField_wordXNN _ _ _⟩
theorem sknp (x : Reg) : Statement (.sknp x) :=
  (and_maskF0FF _ 0xe 0xa1).mpr ⟨opField_wordXNN _ _ _, nnField_wordXNN _ _ _⟩
theorem lddt (x : Reg) : Statement (.lddt x) :=
  (and_maskF0FF _ 0xf 0x7).mpr ⟨opField_wordXNN _ _ _, nnField_wordXNN _ _ _⟩
theorem wkey (x : Reg) : Statement (.wkey x) :=
  (and_maskF0FF _ 0xf 0xa).mpr ⟨opField_wordXNN _ _ _, nnField_wordXNN _ _ _⟩
theorem stdt (x : Reg) : Statement (.stdt x) :=
  (and_maskF0FF _ 0xf 0x15).mpr ⟨opField_wordXNN _ _ _, nnField_wordXNN _ _ _⟩
theorem stst (x : Reg) : Statement (.stst x) :=
  (and_maskF0FF _ 0xf 0x18).mpr ⟨opField_wordXNN _ _ _, nnField_wordXNN _ _ _⟩
theorem addix (x : Reg) : Statement (.addix x) :=
  (and_maskF0FF _ 0xf 0x1e).mpr ⟨opField_wordXNN _ _ _, nnField_wordXNN _ _ _⟩
theorem font (x : Reg) : Statement (.font x) :=
  (and_maskF0FF _ 0xf 0x29).mpr ⟨opField_wordXNN _ _ _, nnField_wordXNN _ _ _⟩
theorem bcd (x : Reg) : Statement (.bcd x) :=
  (and_maskF0FF _ 0xf 0x33).mpr ⟨opField_wordXNN _ _ _, nnField_wordXNN _ _ _⟩
theorem stm (x : Reg) : Statement (.stm x) :=
  (and_maskF0FF _ 0xf 0x55).mpr ⟨opField_wordXNN _ _ _, nnField_wordXNN _ _ _⟩
theorem ldm (x : Reg) : Statement (.ldm x) :=
  (and_maskF0FF _ 0xf 0x65).mpr ⟨opField_wordXNN _ _ _, nnField_wordXNN _ _ _⟩

/-- The family's statement for every instruction. -/
theorem forAll : (i : Instr) → Statement i
  | .idle => idle
  | .cls => cls
  | .ret => ret
  | .jp nnn => jp nnn
  | .call nnn => call nnn
  | .sei x nn => sei x nn
  | .snei x nn => snei x nn
  | .ser x y => ser x y
  | .ldi x nn => ldi x nn
  | .addi x nn => addi x nn
  | .mov x y => mov x y
  | .or x y => or x y
  | .and x y => and x y
  | .xor x y => xor x y
  | .add x y => add x y
  | .sub x y => sub x y
  | .shr x y => shr x y
  | .subn x y => subn x y
  | .shl x y => shl x y
  | .sner x y => sner x y
  | .ldix nnn => ldix nnn
  | .jpv0 nnn => jpv0 nnn
  | .rnd x nn => rnd x nn
  | .drw x y n => drw x y n
  | .skp x => skp x
  | .sknp x => sknp x
  | .lddt x => lddt x
  | .wkey x => wkey x
  | .stdt x => stdt x
  | .stst x => stst x
  | .addix x => addix x
  | .font x => font x
  | .bcd x => bcd x
  | .stm x => stm x
  | .ldm x => ldm x

end Sys2Proof.Laws.RowMatch
end

