-- ==== Sys2Proof/Tests/Slice0.lean ====
section
/-! SUPPORT. Tests of one step or one word each, their expected results from spec/95_test_vectors.md (the vector's id
stands before each theorem) or from the rule named; and for every obligation with hypotheses, witnesses that meet them. -/

namespace Sys2Proof.Machine.Tests

/-! ## Helpers -/

/-- The step that runs the word `w` in the state `s`. -/
def run (s : State) (w : Word) : Result := step (s.withFetchWord 16 w.toNat)

/-- The reset state with registers set. -/
def withRegs (rs : List (Reg × Byte)) : State := rs.foldl (fun s p => setV s p.1 p.2) State.reset

/-- `withRegs` with `I` set. -/
def withIndex (n : Nat) (rs : List (Reg × Byte)) : State := setI (withRegs rs) n

/-- The reset state with `PC` set. -/
def withPc (n : Nat) : State := { State.reset with pc := BitVec.ofNat 16 n }

/-- The reset state with the stack pointer set. -/
def withSp (n : Fin 17) : State := { State.reset with sp := n }

/-- What is seen of the next state, none when there is no next state. -/
def seen {α : Type} (r : Result) (f : State → α) : Option α :=
  match r with
  | .next t => some (f t)
  | .fault _ => none
  | .refused _ => none

/-- Kind code, opcode, pc and info of a fault record. -/
def record (s : State) : Option (BitVec 3 × Word × Word × Word) :=
  s.fault.map fun r => (r.kind.code, r.opcode, r.pc, r.info)

/-! ## Ill-formed words: one for each check, refused (F3 to F10, R96) -/

theorem test_wf_zero : unknownZero 0x0123 = true ∧ unknownZero 0x00E1 = true ∧
    wellFormedWord 0x0001 = false ∧ wellFormedWord 0x0FFF = false := by decide
theorem test_wf_five : unknownFive 0x5121 = true ∧ wellFormedWord 0x512F = false := by decide
theorem test_wf_eight : unknownEight 0x8128 = true ∧ unknownEight 0x812D = true ∧
    wellFormedWord 0x812F = false := by decide
theorem test_wf_nine : unknownNine 0x9121 = true ∧ wellFormedWord 0x912F = false := by decide
theorem test_wf_e : unknownE 0xE100 = true ∧ wellFormedWord 0xE19F = false := by decide
theorem test_wf_f : unknownF 0xF130 = true ∧ unknownF 0xF175 = true ∧ wellFormedWord 0xF1FF = false := by decide
/-- R97: the idle word is not unknown; R98: `Y` of `8XY6` does not matter. -/
theorem test_wf_defined : wellFormedWord 0x0000 = true ∧ wellFormedWord 0x00E0 = true ∧
    wellFormedWord 0x812E = true ∧ wellFormedWord 0xFF65 = true := by decide
theorem test_decode_refuses : decode 0x812A = .error (.unknownOpcode 0x812A) ∧
    decode 0xF100 = .error (.unknownOpcode 0xF100) ∧ decodeBytes [0x61] = .error .tooShort := by decide

/-! ## Every constructor decoded from a word written out from the encoding table (R91, R92, R95) -/

theorem test_decode_control : decode 0x0000 = .ok .idle ∧ decode 0x00EE = .ok .ret ∧ decode 0x1ABC = .ok (.jp 0xABC) ∧
    decode 0x2DEF = .ok (.call 0xDEF) ∧ decode 0x3AB1 = .ok (.sei 0xA 0xB1) ∧ decode 0x4C2D = .ok (.snei 0xC 0x2D) ∧
    decode 0x5340 = .ok (.ser 3 4) ∧ decode 0x9AB0 = .ok (.sner 0xA 0xB) ∧ decode 0xBFFE = .ok (.jpv0 0xFFE) := by decide
theorem test_decode_alu : decode 0x6A7F = .ok (.ldi 0xA 0x7F) ∧ decode 0x71FF = .ok (.addi 1 0xFF) ∧
    decode 0x8120 = .ok (.mov 1 2) ∧ decode 0x8341 = .ok (.or 3 4) ∧ decode 0x8562 = .ok (.and 5 6) ∧
    decode 0x8783 = .ok (.xor 7 8) ∧ decode 0x89A4 = .ok (.add 9 0xA) := by decide
theorem test_decode_alu_flags : decode 0x8BC5 = .ok (.sub 0xB 0xC) ∧ decode 0x8DE6 = .ok (.shr 0xD 0xE) ∧
    decode 0x8F07 = .ok (.subn 0xF 0) ∧ decode 0x812E = .ok (.shl 1 2) ∧ decode 0xC10F = .ok (.rnd 1 0x0F) := by decide
theorem test_decode_memory : decode 0xA123 = .ok (.ldix 0x123) ∧ decode 0xF21E = .ok (.addix 2) ∧
    decode 0xF029 = .ok (.font 0) ∧ decode 0xF333 = .ok (.bcd 3) ∧ decode 0xFF55 = .ok (.stm 0xF) ∧
    decode 0xF165 = .ok (.ldm 1) := by decide
theorem test_decode_display_keypad : decode 0x00E0 = .ok .cls ∧ decode 0xD125 = .ok (.drw 1 2 5) ∧
    decode 0xE19E = .ok (.skp 1) ∧ decode 0xE2A1 = .ok (.sknp 2) ∧ decode 0xF307 = .ok (.lddt 3) ∧
    decode 0xF40A = .ok (.wkey 4) ∧ decode 0xF515 = .ok (.stdt 5) ∧ decode 0xF618 = .ok (.stst 6) := by decide

/-- The opcode table's bit numbering, and the word where the first step after reset fetches it. -/
theorem test_table_word : decodeTableWord 16 0x8AB4 = some (.add 0xA 0xB) ∧ decodeTableWord 16 0x8AB8 = none ∧
    fetch (State.reset.withFetchWord 16 0x8AB4) = .ok 0x8AB4 := by decide
/-- R261: with nothing lined up the next event is the environment's, whatever that is. -/
theorem test_free_event : step State.reset =
    performEvent { State.reset with turns := 1 } (allowedEvent (Config.environment 0)) := rfl
/-- E10: `611F` at `0x200`, one step. -/
theorem test_first_step : seen (run State.reset 0x611F) (fun t => (getV t 1, t.pc)) = some (0x1F, 0x202) := by decide

/-! ## Reset, codes and events -/

/-- E9, R37. -/
theorem test_reset : Memory.read State.reset.mem 0 = 0xF0 ∧ Memory.read State.reset.mem 1 = 0x90 ∧
    Memory.read State.reset.mem 0x4F = 0x80 ∧ Memory.read State.reset.mem 0x50 = 0 ∧ State.reset.pc = 0x200 := by decide
/-- R32 and R250: the codes. -/
theorem test_codes : Mode.running.code = 0 ∧ Mode.waitingForKey.code = 1 ∧ Mode.halted.code = 2 ∧
    FaultKind.outOfRangeMemoryAccess.code = 1 ∧ FaultKind.keyIndexOutOfRange.code = 6 := by decide
/-- R290, R292: a program image loaded from any state, the program counter at its first byte. -/
theorem test_reset_event :
    seen (performEvent (withPc 0x300) (.reset [0x61, 0x1F])) (fun t => (t.pc, fetch t, Memory.read t.mem 0x202)) =
      some (0x200, .ok 0x611F, 0) := by decide
/-- T4, T5 and T6. -/
theorem test_tick : seen (performEvent { State.reset with dt := 2 } .tick) (fun t => (t.dt, t.st)) = some (1, 0) ∧
    seen (performEvent { State.reset with dt := 5, st := 5, mode := .waitingForKey } .tick)
      (fun t => (t.dt, t.st)) = some (4, 4) := by decide
/-- T7. -/
theorem test_tick_halted : seen (performEvent { State.reset with dt := 4, st := 4, mode := .halted } .tick)
    (fun t => (t.dt, t.st)) = some (4, 4) := by decide
/-- R263 (keys 7 and 9 of P5) and T10. -/
theorem test_set_keys_ack : seen (performEvent State.reset (.setKeys 0x0280))
      (fun t => (keyDown t 7, keyDown t 8, keyDown t 9)) = some (true, false, true) ∧
    seen (performEvent { State.reset with dirty := true } .ackDirty) State.dirty = some false := by decide
/-- 00_scope.md R5, 60_exceptions.md R261: the oldest event is taken, and taken off; here a `Tick` before a `Step`. -/
theorem test_event_order : seen (step { State.reset with dt := 3, agenda := [.tick, .step] })
    (fun t => (t.dt, t.pc, t.agenda)) = some (2, 0x200, [.step]) := by decide

/-! ## Control flow and the idle word -/

/-- E12. -/
theorem test_idle : seen (run State.reset 0x0000) State.pc = some 0x200 ∧
    stepReport State.reset = ⟨.idle, false⟩ := by decide
/-- B4. -/
theorem test_ret : seen (run { withSp 1 with stack := State.reset.stack.set 0 0x204 } 0x00EE)
    (fun t => (t.pc, t.sp, t.stack[0])) = some (0x206, 0, 0x204) := by decide
/-- F1. -/
theorem test_ret_underflow : seen (run State.reset 0x00EE) (fun t => (record t, t.mode, t.pc)) =
    some (some (4, 0x00EE, 0x200, 0), .halted, 0x200) := by decide
/-- B1, B2. -/
theorem test_jp : seen (run (withPc 0x20A) 0x1204) State.pc = some 0x204 ∧
    seen (run State.reset 0x1200) State.pc = some 0x200 := by decide
/-- B5. -/
theorem test_call_sixteenth : seen (run { withSp 15 with pc := 0x300 } 0x2400) (fun t => (t.stack[15], t.sp, t.pc)) =
    some (0x300, 16, 0x400) := by decide
/-- P6, step 17. -/
theorem test_call_overflow : seen (run (withSp 16) 0x2200) (fun t => (record t, t.sp, t.pc)) =
    some (some (3, 0x2200, 0x200, 0x10), 16, 0x200) := by decide
/-- E3. -/
theorem test_sei : seen (run (withRegs [(1, 0x2A)]) 0x312A) State.pc = some 0x204 ∧
    seen (run (withRegs [(1, 0x2A)]) 0x312B) State.pc = some 0x202 := by decide
/-- E3. -/
theorem test_snei : seen (run (withRegs [(1, 0x2A)]) 0x412A) State.pc = some 0x202 ∧
    seen (run (withRegs [(1, 0x2A)]) 0x412B) State.pc = some 0x204 := by decide
/-- B6, B7. -/
theorem test_ser : seen (run { withRegs [(3, 7), (4, 7)] with pc := 0x210 } 0x5340) State.pc = some 0x214 ∧
    seen (run { withRegs [(3, 7), (4, 8)] with pc := 0x210 } 0x5340) State.pc = some 0x212 := by decide
/-- B8, B10. -/
theorem test_sner : seen (run { withRegs [(3, 7), (4, 8)] with pc := 0x210 } 0x9340) State.pc = some 0x214 ∧
    seen (run { withRegs [(3, 7)] with pc := 0x210 } 0x9330) State.pc = some 0x212 := by decide
/-- B11, B12. -/
theorem test_jpv0 : seen (run (withRegs [(0, 4)]) 0xB300) State.pc = some 0x304 ∧
    seen (run (withRegs [(0, 0xFF)]) 0xBFFF) State.pc = some 0x10FE := by decide

/-! ## Register and ALU instructions -/

/-- A1. -/
theorem test_ldi : seen (run State.reset 0x6A7F) (fun t => getV t 0xA) = some 0x7F := by decide
/-- A1. -/
theorem test_addi : seen (run (withRegs [(0xA, 0xFF), (0xF, 9)]) 0x7A01) (fun t => (getV t 0xA, getV t 0xF)) =
    some (0, 9) := by decide
/-- A1: with `X = 0xF`. -/
theorem test_addi_vf : seen (run (withRegs [(0xF, 0xF8)]) 0x7F10) (fun t => getV t 0xF) = some 8 := by decide
/-- A1. -/
theorem test_mov : seen (run (withRegs [(2, 0x3C)]) 0x8120) (fun t => (getV t 1, getV t 2)) = some (0x3C, 0x3C) := by decide
/-- A1: `VF` is kept. -/
theorem test_or : seen (run (withRegs [(1, 0xF0), (2, 0x0F), (0xF, 1)]) 0x8121) (fun t => (getV t 1, getV t 0xF)) =
    some (0xFF, 1) := by decide
/-- A1. -/
theorem test_and : seen (run (withRegs [(1, 0xF0), (2, 0x3C)]) 0x8122) (fun t => getV t 1) = some 0x30 := by decide
/-- A1: `X = Y` too. -/
theorem test_xor : seen (run (withRegs [(1, 0xF0), (2, 0x3C)]) 0x8123) (fun t => getV t 1) = some 0xCC ∧
    seen (run (withRegs [(1, 0x5A)]) 0x8113) (fun t => getV t 1) = some 0 := by decide
/-- A2. -/
theorem test_add : seen (run (withRegs [(1, 0x80), (2, 0x80)]) 0x8124) (fun t => (getV t 1, getV t 0xF)) = some (0, 1) ∧
    seen (run (withRegs [(1, 0x80), (2, 0x7F)]) 0x8124) (fun t => (getV t 1, getV t 0xF)) = some (0xFF, 0) := by decide
/-- A3, A4: the flag as destination and as operand. -/
theorem test_add_vf : seen (run (withRegs [(0xF, 0xF0), (2, 0x20)]) 0x8F24) (fun t => getV t 0xF) = some 1 ∧
    seen (run (withRegs [(1, 0xF0), (0xF, 0x20)]) 0x81F4) (fun t => (getV t 1, getV t 0xF)) = some (0x10, 1) := by decide
/-- A2. -/
theorem test_sub : seen (run (withRegs [(1, 5), (2, 7)]) 0x8125) (fun t => (getV t 1, getV t 0xF)) = some (0xFE, 0) ∧
    seen (run (withRegs [(1, 7), (2, 7)]) 0x8125) (fun t => (getV t 1, getV t 0xF)) = some (0, 1) := by decide
/-- A3, A4. -/
theorem test_sub_vf : seen (run (withRegs [(0xF, 0x20), (2, 0x10)]) 0x8F25) (fun t => getV t 0xF) = some 1 ∧
    seen (run (withRegs [(1, 0x10), (0xF, 0x20)]) 0x81F5) (fun t => (getV t 1, getV t 0xF)) = some (0xF0, 0) := by decide
/-- A2, A5: `V[Y]` plays no part. -/
theorem test_shr : seen (run (withRegs [(1, 5), (2, 0xFF)]) 0x8126) (fun t => (getV t 1, getV t 0xF)) = some (2, 1) ∧
    seen (run (withRegs [(1, 0x33)]) 0x8116) (fun t => (getV t 1, getV t 0xF)) = some (0x19, 1) := by decide
/-- A3. -/
theorem test_shr_vf : seen (run (withRegs [(0xF, 2)]) 0x8F26) (fun t => getV t 0xF) = some 0 := by decide
/-- A2. -/
theorem test_subn : seen (run (withRegs [(1, 5), (2, 7)]) 0x8127) (fun t => (getV t 1, getV t 0xF)) = some (2, 1) ∧
    seen (run (withRegs [(1, 1), (2, 0)]) 0x8127) (fun t => (getV t 1, getV t 0xF)) = some (0xFF, 0) := by decide
/-- A3, A4. -/
theorem test_subn_vf : seen (run (withRegs [(0xF, 0x20), (2, 0x10)]) 0x8F27) (fun t => getV t 0xF) = some 0 ∧
    seen (run (withRegs [(1, 0x20), (0xF, 0x10)]) 0x81F7) (fun t => (getV t 1, getV t 0xF)) = some (0xF0, 0) := by decide
/-- A2. -/
theorem test_shl : seen (run (withRegs [(1, 0x81), (2, 0xFF)]) 0x812E) (fun t => (getV t 1, getV t 0xF)) = some (2, 1) ∧
    seen (run (withRegs [(1, 0x40)]) 0x812E) (fun t => (getV t 1, getV t 0xF)) = some (0x80, 0) := by decide
/-- A3. -/
theorem test_shl_vf : seen (run (withRegs [(0xF, 0x41)]) 0x8F2E) (fun t => getV t 0xF) = some 0 := by decide
/-- A6: whatever the byte, the mask `0x00` leaves 0, and one byte is drawn. -/
theorem test_rnd (s : State) : exec (.rnd 1 0x00) s = .next (completeNext
    (setV (drawByte s).2 1 ((drawByte s).1 &&& 0x00))) ∧ (drawByte s).1 &&& 0x00#8 = 0 := ⟨rfl, by simp⟩

/-! ## Index register and memory -/

/-- M1. -/
theorem test_ldix : seen (run State.reset 0xA300) State.i = some 0x300 := by decide
/-- M3, M4: past `0xFFF` without a fault, and modulo 65536. -/
theorem test_addix : seen (run (withIndex 0xFFF [(2, 1)]) 0xF21E) (fun t => (t.i, getV t 0xF)) = some (0x1000, 0) ∧
    seen (run (withIndex 0xFFFF [(2, 1)]) 0xF21E) State.i = some 0 := by decide
/-- M5, M7. -/
theorem test_font : seen (run (withRegs [(0, 0x0A)]) 0xF029) State.i = some 0x32 ∧
    seen (run (withRegs [(0, 0xFF)]) 0xF029) State.i = some 0x4FB := by decide
/-- M9. -/
theorem test_bcd : seen (run (withIndex 0xFFD [(0, 0xEA)]) 0xF033)
    (fun t => (Memory.read t.mem 0xFFD, Memory.read t.mem 0xFFE, Memory.read t.mem 0xFFF, t.i)) =
      some (2, 3, 4, 0xFFD) := by decide
/-- M10. -/
theorem test_bcd_fault : seen (run (withIndex 0xFFE [(0, 0xEA)]) 0xF033)
    (fun t => (record t, Memory.read t.mem 0xFFE)) = some (some (1, 0xF033, 0x200, 0x1000), 0) := by decide
/-- M11. -/
theorem test_stm : seen (run (withIndex 0x300 [(0, 1), (1, 2), (2, 3), (3, 4)]) 0xF255)
    (fun t => (Memory.read t.mem 0x300, Memory.read t.mem 0x302, Memory.read t.mem 0x303, t.i)) =
      some (1, 3, 0, 0x300) := by decide
/-- M14. -/
theorem test_stm_fault : seen (run (withIndex 0xFF1 [(0, 1)]) 0xFF55)
    (fun t => (record t, Memory.read t.mem 0xFF1)) = some (some (1, 0xFF55, 0x200, 0x1000), 0) := by decide
/-- M16. -/
theorem test_ldm : seen (run (withIndex 0 [(2, 7)]) 0xF165)
    (fun t => (getV t 0, getV t 1, getV t 2, t.i)) = some (0xF0, 0x90, 7, 0) := by decide
/-- M17. -/
theorem test_ldm_fault : seen (run (withIndex 0x11FD []) 0xF065) record =
    some (some (1, 0xF065, 0x200, 0x11FD)) := by decide

/-! ## Display -/

/-- S13. -/
theorem test_cls : seen (run { State.reset with fb := Vector.replicate 32 (BitVec.allOnes 64) } 0x00E0)
    (fun t => (pixel t.fb 0 0, pixel t.fb 63 31, t.dirty)) = some (false, false, true) := by decide
/-- S7: wrap on both axes. -/
theorem test_drw_wrap :
    seen (run { withIndex 0x300 [(0, 0xFF), (1, 0xFF)] with mem := [(0x300, 0xC0), (0x301, 0xC0)] } 0xD012)
      (fun t => (pixel t.fb 63 31, pixel t.fb 0 31, pixel t.fb 63 0, pixel t.fb 0 0, pixel t.fb 1 0, getV t 0xF)) =
      some (true, true, true, true, false, 0) := by decide
/-- S5: a partial overlap. -/
theorem test_drw_collision :
    seen (run { withIndex 0x300 [] with mem := [(0x300, 0x60)], fb := State.reset.fb.set 0 3 } 0xD001)
      (fun t => (pixel t.fb 0 0, pixel t.fb 1 0, pixel t.fb 2 0, getV t 0xF)) = some (true, false, true, 1) := by decide

/-! ## Keypad and timers -/

/-- K1, K2. -/
theorem test_skp : seen (run (setKeys (withRegs [(1, 7)]) 0x0080) 0xE19E) State.pc = some 0x204 ∧
    seen (run (withRegs [(1, 7)]) 0xE19E) State.pc = some 0x202 := by decide
/-- K5. -/
theorem test_skp_fault : seen (run (withRegs [(1, 0x10)]) 0xE19E) record =
    some (some (6, 0xE19E, 0x200, 0x10)) := by decide
/-- K3, K4. -/
theorem test_sknp : seen (run (withRegs [(1, 7)]) 0xE1A1) State.pc = some 0x204 ∧
    seen (run (setKeys (withRegs [(1, 7)]) 0x0080) 0xE1A1) State.pc = some 0x202 := by decide
/-- K6. -/
theorem test_sknp_fault : seen (run (withRegs [(1, 0xFF)]) 0xE1A1) record =
    some (some (6, 0xE1A1, 0x200, 0xFF)) := by decide
/-- K7. -/
theorem test_wkey_waits : seen (run State.reset 0xF30A) (fun t => (t.pc, t.mode, getV t 3)) =
    some (0x200, .waitingForKey, 0) := by decide
/-- K9, K10. -/
theorem test_wkey : seen (run (setKeys State.reset 0x0280) 0xF00A) (fun t => (getV t 0, t.pc)) = some (7, 0x202) ∧
    seen (run (setKeys (withRegs [(0xF, 9)]) 0x0001) 0xFF0A) (fun t => getV t 0xF) = some 0 := by decide
/-- T1. -/
theorem test_lddt : seen (run { State.reset with dt := 0x2A } 0xF107) (fun t => (getV t 1, t.dt)) =
    some (0x2A, 0x2A) := by decide
/-- T2. -/
theorem test_stdt : seen (run (withRegs [(1, 60)]) 0xF115) State.dt = some 60 := by decide
/-- T3. -/
theorem test_stst : seen (run (withRegs [(2, 3)]) 0xF218) State.st = some 3 := by decide

/-! ## Fetch faults, unknown words, halting -/

/-- F12. -/
theorem test_fetch_fault : seen (engineStep (withPc 0xFFF)) (fun t => (record t, t.mode)) =
    some (some (1, 0, 0xFFF, 0x1000), .halted) := by decide
/-- B12, the step after. -/
theorem test_fetch_fault_far : seen (engineStep (withPc 0x10FE)) record = some (some (1, 0, 0x10FE, 0x10FE)) := by decide
/-- F3. -/
theorem test_unknown : seen (run State.reset 0x8128) (fun t => (record t, t.pc, t.mode)) =
    some (some (5, 0x8128, 0x200, 0), 0x200, .halted) := by decide
/-- F2. -/
theorem test_halted : seen (engineStep { State.reset with mode := .halted, dt := 1 }) (fun t => (t.pc, t.mode, t.dt)) =
    some (0x200, .halted, 1) ∧ stepReport { State.reset with mode := .halted } = ⟨.halted, false⟩ := by decide

/-! ## Witnesses: the hypotheses of every obligation can be met, each clause at its boundary -/

theorem witness_EncodingADecodedWordGivesItBack : decode 0x8AB6 = .ok (.shr 0xA 0xB) := by decide

theorem witness_DecoderRefusesExactlyTheUnknownWords :
    unknownWord 0x0001 = true ∧ unknownWord 0x0FFF = true ∧ unknownWord 0x0000 = false ∧ unknownWord 0x1000 = false := by
  decide

theorem witness_EachWordMatchesOnlyTheRowItDecodesTo :
    decode 0x8AB4 = .ok (.add 0xA 0xB) ∧ (0x8AB4#16) &&& (rowOf (.add 0 0)).1 = (rowOf (.add 0 0)).2 := by decide

theorem witness_WordWriteIsBigEndianAndReadsBack : Memory.wf [] ∧ Memory.wf [(0x200, 0x61), (0x201, 0x1F)] := by decide

theorem witness_InstructionIsTwoBytesBigEndian :
    (0x611F#16).toNat = 256 * (0x61#8).toNat + (0x1F#8).toNat ∧ ([0x61#8] : List Byte).length < 2 := by decide

theorem witness_FetchReadsTheBigEndianWordAtPc : (withPc 0xFFE).pc.toNat ≤ 0xFFE ∧ 0xFFE < (withPc 0xFFF).pc.toNat := by
  decide

/-- A state at the last fetchable address, with the word `w` there. -/
def atTop (w : Word) : State := (withPc 0xFFE).withFetchWord 16 w.toNat

theorem witness_StepRunsTheDecodedInstruction :
    (atTop 0x611F).agenda = [.step] ∧ (atTop 0x611F).mode ≠ .halted ∧ (atTop 0x611F).pc.toNat ≤ 0xFFE ∧
    (0x611F#16).toNat = 256 * (Memory.read (atTop 0x611F).mem (atTop 0x611F).pc.toNat).toNat +
      (Memory.read (atTop 0x611F).mem ((atTop 0x611F).pc.toNat + 1)).toNat ∧
    decode 0x611F = .ok (.ldi 1 0x1F) ∧ State.reset.agenda = [] := by decide

/-- A `Tick` lined up, nothing lined up, an event within the limit, and an event performed. -/
theorem witness_EventsComeInAnyOrder :
    ({ State.reset with agenda := [.tick, .step] } : State).agenda = [.tick, .step] ∧ State.reset.agenda = [] ∧
    (∀ rom, Event.tick = .reset rom → rom.length ≤ 3584) ∧
    seen (performEvent { State.reset with agenda := [.step] } (.reset [0x61])) (fun t => (t.agenda, t.turns)) =
      some ([.step], 0) := ⟨rfl, rfl, fun _ h => (by cases h), by decide⟩

theorem witness_TicksBeforeAStepAreNeverLost :
    ({ State.reset with dt := 1, agenda := [.tick, .tick, .step] } : State).agenda =
      List.replicate 2 Event.tick ++ .step :: [] ∧ State.reset.mode ≠ .halted := by decide

/-- A halted engine: the state after F1. -/
def haltedState : State := raiseFault State.reset .stackUnderflow 0x00EE 0

theorem witness_HaltedIsTerminalAndWaitingStepsLikeRunning :
    haltedState.mode = .halted ∧ (atTop 0x611F).mode ≠ .halted ∧ (waitForKey (atTop 0x611F)).mode ≠ .halted := by decide

/-- F14. -/
theorem witness_IdleWordChangesNothingAndStays :
    (withPc 0xFFE).mode ≠ .halted ∧ (withPc 0xFFE).pc.toNat ≤ 0xFFE ∧
    Memory.read (withPc 0xFFE).mem (withPc 0xFFE).pc.toNat = 0 ∧
    Memory.read (withPc 0xFFE).mem ((withPc 0xFFE).pc.toNat + 1) = 0 := by decide

theorem witness_FetchOutOfRangeHalts : (withPc 0xFFF).mode ≠ .halted ∧ 0xFFE < (withPc 0xFFF).pc.toNat := by decide

theorem witness_UnknownOpcodeHalts :
    (atTop 0x5121).mode ≠ .halted ∧ (atTop 0x5121).pc.toNat ≤ 0xFFE ∧
    (0x5121#16).toNat = 256 * (Memory.read (atTop 0x5121).mem (atTop 0x5121).pc.toNat).toNat +
      (Memory.read (atTop 0x5121).mem ((atTop 0x5121).pc.toNat + 1)).toNat ∧
    unknownWord 0x5121 = true := by decide

/-- Each of the five reports is reached. -/
theorem witness_StepReportNamesTheOutcome :
    seen (engineStep (atTop 0x611F)) State.mode = some .running ∧ (stepReport (atTop 0x611F)).result = .executed ∧
    (stepReport (atTop 0x0000)).result = .idle ∧ (stepReport (atTop 0xF00A)).result = .waiting ∧
    (stepReport (atTop 0x5121)).result = .fault ∧ (stepReport haltedState).result = .halted := by decide

theorem witness_DrewReportsExactlyTheDraws :
    (stepReport (atTop 0xD000)).drew = true ∧ (stepReport (atTop 0x00E0)).drew = true ∧
    (stepReport (atTop 0x611F)).drew = false ∧ (seen (engineStep (atTop 0xD000)) State.dirty) = some true := by decide

/-- The converse clause where nothing changes: `N = 0`, `dirty` already set (S8). -/
theorem witness_DrewReportsExactlyTheDraws_unchanged :
    ({ atTop 0xD000 with dirty := true } : State).mode ≠ .halted ∧
    fetch { atTop 0xD000 with dirty := true } = .ok 0xD000 ∧ decode 0xD000 = .ok (.drw 0 0 0) ∧
    seen (engineStep { atTop 0xD000 with dirty := true }) (fun t => (t.mode, t.dirty)) = some (.running, true) ∧
    fetch { atTop 0x00E0 with dirty := true } = .ok 0x00E0 ∧ decode 0x00E0 = .ok .cls ∧
    seen (engineStep { atTop 0x00E0 with dirty := true }) State.mode = some .running := by decide

/-- Each row of the table of faults, and its boundary on the side that completes. -/
theorem witness_InstructionsFaultExactlyByTheTable_stack :
    causeOf (withSp 0) .ret = some (.stackUnderflow, 0) ∧ causeOf (withSp 1) .ret = none ∧
    causeOf (withSp 16) (.call 0) = some (.stackOverflow, 16) ∧ causeOf (withSp 15) (.call 0) = none := by decide

theorem witness_InstructionsFaultExactlyByTheTable_memory :
    causeOf (withIndex 0xFFE []) (.bcd 0) = some (.outOfRangeMemoryAccess, 4096) ∧
    causeOf (withIndex 0xFFD []) (.bcd 0) = none ∧
    causeOf (withIndex 0xFF1 []) (.stm 0xF) = some (.outOfRangeMemoryAccess, 4096) ∧
    causeOf (withIndex 0xFF0 []) (.stm 0xF) = none ∧
    causeOf (withIndex 0x11FD []) (.ldm 0) = some (.outOfRangeMemoryAccess, 0x11FD) ∧
    causeOf (withIndex 0xFFF []) (.ldm 0) = none := by decide

theorem witness_InstructionsFaultExactlyByTheTable_display_keys :
    causeOf (withIndex 0xFFF []) (.drw 0 0 2) = some (.outOfRangeMemoryAccess, 4096) ∧
    causeOf (withIndex 0xFFF []) (.drw 0 0 1) = none ∧ causeOf (withIndex 0x11FD []) (.drw 0 0 0) = none ∧
    causeOf (withRegs [(1, 0x10)]) (.skp 1) = some (.keyIndexOutOfRange, 0x10) ∧
    causeOf (withRegs [(1, 0xF)]) (.sknp 1) = none := by decide

/-- Both clauses: an instruction's fault and a fetch fault. -/
theorem witness_FaultingStepsArePrecise :
    (atTop 0x00EE).mode ≠ .halted ∧ seen (engineStep (atTop 0x00EE)) State.mode = some .halted ∧
    fetch (atTop 0x00EE) = .ok 0x00EE ∧ (withPc 0xFFF).mode ≠ .halted ∧
    seen (engineStep (withPc 0xFFF)) State.mode = some .halted ∧ fetch (withPc 0xFFF) = .error 4096 := by decide

theorem witness_HaltedFreezesTheEngineUntilReset : haltedState.mode = .halted ∧ (∀ rom, Event.tick ≠ .reset rom) ∧
    performEvent haltedState .tick = .next haltedState := ⟨rfl, fun _ h => (by cases h), rfl⟩

/-- A record of the reserved kind stands only in states no run reaches. -/
theorem witness_ReservedFaultKindIsNeverRaised :
    seen (step { raiseFault State.reset .invalidRegisterIndex 0 0 with agenda := [.step] }) State.fault =
      some (some ⟨.invalidRegisterIndex, 0, 0x200, 0⟩) := by decide

theorem witness_EveryInstructionKeepsItsFrame :
    seen (exec (.stm 1) (withIndex 0xFFE [(0, 5)])) State.pc = some 0x202 ∧
    seen (exec .ret (withSp 0)) State.pc = some 0x200 ∧ causeOf (withIndex 0xFFE []) (.stm 1) = none := by decide

/-- The flag changed by a listed instruction, and a flag-writing instruction that completes. -/
theorem witness_OnlyListedInstructionsWriteTheFlag :
    seen (exec (.add 1 2) (withRegs [(1, 0xFF), (2, 1)])) (fun t => (getV t 0xF, t.mode)) = some (1, .running) ∧
    seen (exec (.ldm 0xF) (withIndex 0 [])) (fun t => getV t 0xF) = some 0xF0 := by decide

theorem witness_NoInstructionReadsSoundTimerOrDirty :
    seen (exec (.stst 1) (withRegs [(1, 3)])) State.st = some 3 ∧
    seen (exec .cls { State.reset with st := 9, dirty := true }) (fun t => (t.st, t.dirty)) = some (9, true) := by decide

/-- A waiting engine meets the invariant, and steps. -/
theorem witness_EveryStepKeepsTheInvariant_waiting :
    EngineInv (waitForKey (atTop 0xF00A)) ∧ seen (step (waitForKey (atTop 0xF00A))) State.mode = some .waitingForKey := by
  refine ⟨⟨⟨by decide, by decide⟩, (by decide : (0xFFE#16).toNat ≤ 0x10FE), fun k hk => absurd hk (Nat.not_lt_zero _),
    ⟨?_, fun r hr => ?_⟩, fun _ => ⟨0xF00A, 0, by decide, by decide⟩⟩, by decide⟩
  · exact ⟨fun h => absurd rfl h, fun h => by cases h⟩
  · cases hr

/-- So does a halted engine. -/
theorem witness_EveryStepKeepsTheInvariant_halted :
    EngineInv { haltedState with agenda := [.step] } ∧
    seen (step { haltedState with agenda := [.step] }) State.mode = some .halted := by
  refine ⟨⟨⟨by decide, by decide⟩, (by decide : (0x200#16).toNat ≤ 0x10FE), fun k hk => absurd hk (Nat.not_lt_zero _),
    ⟨?_, fun r hr => ?_⟩, fun h => by cases h⟩, by decide⟩
  · exact ⟨fun _ => rfl, fun _ h => by cases h⟩
  · cases hr; exact ⟨rfl, by decide⟩

theorem witness_ResetLoadsTheImageAndClearsTheEngine :
    (List.replicate 3584 (0 : Byte)).length ≤ 3584 ∧ 3584 < (List.replicate 3585 (0 : Byte)).length ∧
    ([0x61, 0x1F] : List Byte).length ≤ 3584 ∧ 1 < ([0x61, 0x1F] : List Byte).length := by
  exact ⟨List.length_replicate.le, by rw [List.length_replicate]; decide, by decide, by decide⟩

theorem witness_TickCountsBothTimersDown : State.reset.mode ≠ .halted ∧ haltedState.mode = .halted := by decide

theorem witness_DelayTimerRisesOnlyBySetting :
    seen (step { State.reset with dt := 2, agenda := [.tick] }) State.dt = some 1 ∧
    (∀ rom, upcoming { State.reset with dt := 2, agenda := [.tick] } ≠ .reset rom) ∧
    (∀ w x, fetch { State.reset with dt := 2, agenda := [.tick] } = .ok w → decode w ≠ .ok (.stdt x)) := by
  refine ⟨by decide, ?_, ?_⟩
  · intro rom h; cases h
  · intro w x h
    have hw : fetch { State.reset with dt := 2, agenda := [.tick] } = .ok 0 := by decide
    rw [hw] at h; cases h
    intro h'; cases h'

/-- The clauses of the ALU statements for `X` other than `VF`, and the masked-out bit of `CXNN`. -/
theorem witness_alu_clauses : (0xE : Reg) ≠ 0xF ∧ (0 : Reg) ≠ 0xF ∧ (0x0F#8).getLsbD 4 = false ∧ (0 : Nat) < 7 := by decide

theorem witness_CallPushesItsOwnAddress : (withSp 15).sp.val < 16 ∧ (withSp 16).sp.val = 16 := by decide

theorem witness_ReturnResumesAfterTheCall :
    (withSp 1).sp.val = (0 : Fin 16).val + 1 ∧ (withSp 16).sp.val = (15 : Fin 16).val + 1 ∧ (withSp 0).sp.val = 0 := by
  decide

theorem witness_CallThenReturnRoundTrips :
    (withSp 15).sp.val < 16 ∧ seen (exec (.call 0x300) (withSp 15)) (fun t => (t.sp, t.stack[15])) = some (16, 0x200) := by
  decide

theorem witness_BcdWritesTheThreeDigits :
    Memory.wf (withIndex 0xFFD []).mem ∧ (withIndex 0xFFD []).i.toNat + 2 ≤ 4095 ∧
    4095 < (withIndex 0xFFE []).i.toNat + 2 := by decide

theorem witness_StoreRegistersResult :
    Memory.wf (withIndex 0xFF0 []).mem ∧ (withIndex 0xFF0 []).i.toNat + (0xF : Reg).toNat ≤ 4095 ∧
    (0xF : Reg).toNat ≤ (0xF : Reg).toNat ∧ 4095 < (withIndex 0xFF1 []).i.toNat + (0xF : Reg).toNat := by decide

theorem witness_LoadRegistersResult :
    (withIndex 0xFFF []).i.toNat + (0 : Reg).toNat ≤ 4095 ∧ 4095 < (withIndex 0x11FD []).i.toNat + (0 : Reg).toNat := by
  decide

/-- P7: `V0` and `V1` stored at `0x208`, reloaded, and fetched there. -/
theorem witness_StoredRegistersAreLoadedAndFetched :
    Memory.wf (withIndex 0x208 [(0, 0x62), (1, 0x77)]).mem ∧ (withIndex 0x208 [(0, 0x62), (1, 0x77)]).i.toNat + 1 ≤ 4095 ∧
    (1 : Reg).toNat = (0 : Reg).toNat + 1 ∧ (withPc 0x208).pc.toNat = (withIndex 0x208 []).i.toNat + (0 : Reg).toNat := by
  decide

/-- S8, S11 and S10: no row; the last byte of memory; one row too many. -/
theorem witness_DrawXorsTheSpriteAndReportsCollision :
    (0 : Nibble) = 0 ∧ (withIndex 0xFFF []).i.toNat + (1 : Nibble).toNat ≤ 4096 ∧
    0 < (2 : Nibble).toNat ∧ 4096 < (withIndex 0xFFF []).i.toNat + (2 : Nibble).toNat := by decide

theorem witness_SpriteNeverOverlapsItself : (List.replicate 15 (0xFF : Byte)).length ≤ 15 := by decide

/-- P3. -/
theorem witness_DrawingTwiceRestoresTheScreen :
    (0 : Reg) ≠ 0xF ∧ (withIndex 0 []).i.toNat + (5 : Nibble).toNat ≤ 4096 := by decide

theorem witness_KeySkipsTestTheKeyLevel :
    (getV (withRegs [(1, 0xF)]) 1).toNat = (0xF : Reg).toNat ∧ 15 < (getV (withRegs [(1, 0x10)]) 1).toNat ∧
    keyDown (setKeys State.reset 0x8000) 0xF = true := by decide

/-- K7 and K9: no key down, with `PC` at an `FX0A`; keys 7 and 9 down. -/
theorem witness_WaitForKeyStoresTheLowestKeyDown :
    (∀ k, keyDown (atTop 0xF00A) k = false) ∧ (atTop 0xF00A).mode ≠ .halted ∧ fetch (atTop 0xF00A) = .ok 0xF00A ∧
    decode 0xF00A = .ok (.wkey 0) ∧ keyDown (setKeys State.reset 0x0280) 7 = true ∧
    (∀ j : Reg, j.toNat < 7 → keyDown (setKeys State.reset 0x0280) j = false) := by decide

end Sys2Proof.Machine.Tests
end

/-! PROOFS of the step cycle (40_step_cycle.md). R120 treats `Running` and `WaitingForKey` alike because nothing a `Step`
does reads the mode after the mode test: every meaning sets the mode itself. -/

namespace Sys2Proof.Machine

/-! ## The mode test -/

theorem engineStep_of_halted {s : State} (h : s.mode = .halted) : engineStep s = .next s := by
  simp only [engineStep, h]

theorem stepReport_of_halted {s : State} (h : s.mode = .halted) : stepReport s = ⟨.halted, false⟩ := by
  simp only [stepReport, h]

/-- Outside `Halted` a `Step` proceeds to fetch (R120). -/
theorem engineStep_of_running {s : State} (h : s.mode ≠ .halted) : engineStep s = fetchAndPerform s := by
  cases hm : s.mode with
  | halted => exact absurd hm h
  | running => simp only [engineStep, hm]
  | waitingForKey => simp only [engineStep, hm]

/-! ## Past the mode test the mode is not read -/

theorem pushPc_withMode (s : State) (m : Mode) :
    pushPc { s with mode := m } = (pushPc s).map fun t => { t with mode := m } := by
  unfold pushPc
  split <;> rfl

theorem popPc_withMode (s : State) (m : Mode) :
    popPc { s with mode := m } = (popPc s).map fun p => (p.1, { p.2 with mode := m }) := by
  unfold popPc
  split <;> rfl

theorem execRet_withMode (s : State) (m : Mode) : execRet { s with mode := m } = execRet s := by
  unfold execRet
  rw [popPc_withMode]
  cases popPc s <;> rfl

theorem execCall_withMode (nnn : Addr) (s : State) (m : Mode) : execCall nnn { s with mode := m } = execCall nnn s := by
  unfold execCall
  rw [pushPc_withMode]
  cases pushPc s <;> rfl

theorem execLdm_withMode (x : Reg) (s : State) (m : Mode) : execLdm x { s with mode := m } = execLdm x s := by
  unfold execLdm
  rw [loadRegs_withMode]
  rfl

/-- No instruction reads the mode. All but three meanings only overwrite it, by `complete`, `waitForKey`, `idleState` or
`raiseFault`; `RET`, `CALL` and `LDM` first carry it through the stack or the register range. -/
theorem exec_withMode (i : Instr) (s : State) (m : Mode) : exec i { s with mode := m } = exec i s := by
  cases i with
  | ret => exact execRet_withMode s m
  | call nnn => exact execCall_withMode nnn s m
  | ldm x => exact execLdm_withMode x s m
  | _ => rfl

theorem fetch_withMode (s : State) (m : Mode) : fetch { s with mode := m } = fetch s := rfl

theorem performWord_withMode (s : State) (w : Word) (m : Mode) :
    performWord { s with mode := m } w = performWord s w := by
  unfold performWord
  cases decode w with
  | ok i => exact exec_withMode i s m
  | error e => rfl

theorem fetchAndPerform_withMode (s : State) (m : Mode) :
    fetchAndPerform { s with mode := m } = fetchAndPerform s := by
  unfold fetchAndPerform
  rw [fetch_withMode]
  cases fetch s with
  | ok w => exact performWord_withMode s w m
  | error a => rfl

theorem fetchReport_withMode (s : State) (m : Mode) : fetchReport { s with mode := m } = fetchReport s := by
  simp only [fetchReport, fetch_withMode, exec_withMode]

/-! ## The obligation -/

/-- Settles O12: the two live modes both fetch, and what follows the fetch does not depend on the mode. -/
theorem haltedIsTerminalAndWaitingStepsLikeRunning : Obligations.HaltedIsTerminalAndWaitingStepsLikeRunning := by
  refine ⟨fun s h => ⟨engineStep_of_halted h, stepReport_of_halted h⟩,
    fun s h => ⟨engineStep_of_running h, stepReport_of_running h⟩, fun s => ⟨?_, ?_⟩⟩
  · calc engineStep { s with mode := .waitingForKey }
      _ = fetchAndPerform s := fetchAndPerform_withMode s .waitingForKey
      _ = engineStep { s with mode := .running } := (fetchAndPerform_withMode s .running).symm
  · calc stepReport { s with mode := .waitingForKey }
      _ = fetchReport s := fetchReport_withMode s .waitingForKey
      _ = stepReport { s with mode := .running } := (fetchReport_withMode s .running).symm

end Sys2Proof.Machine

/-! PROOFS of the decoder's rows (30_encoding.md R94, R95): a word that decodes is the word of its instruction, so each
row's mask and value pick exactly the words that decode to it. -/

namespace Sys2Proof

variable {w : Word} {i : Instr}

/-! ## A word rebuilt from known fixed digits -/

theorem wordNNN_of_opField {o : BitVec 4} (ho : opField w = o) : wordNNN o (nnnField w) = w := by
  rw [← ho, wordNNN_fields]

theorem wordXNN_of_opField {o : BitVec 4} (ho : opField w = o) : wordXNN o (xField w) (nnField w) = w := by
  rw [← ho, wordXNN_fields]

theorem wordXNN_of_digits {o : BitVec 4} {nn : Byte} (ho : opField w = o) (hn : nnField w = nn) :
    wordXNN o (xField w) nn = w := by
  rw [← hn, wordXNN_of_opField ho]

theorem wordXYN_of_opField {o : BitVec 4} (ho : opField w = o) :
    wordXYN o (xField w) (yField w) (nField w) = w := by
  rw [← ho, wordXYN_fields]

theorem wordXYN_of_digits {o : BitVec 4} {n : Nibble} (ho : opField w = o) (hn : nField w = n) :
    wordXYN o (xField w) (yField w) n = w := by
  rw [← hn, wordXYN_of_opField ho]

/-! ## A word that decodes is its instruction's word -/

theorem encode_of_decodeZero (h : decodeZero w = .ok i) : encode i = w := by
  unfold decodeZero at h
  split at h <;> cases h
  all_goals next hw => exact (BitVec.eq_of_toNat_eq hw).symm

theorem encode_of_decodeEight (ho : opField w = 0x8) (h : decodeEight w = .ok i) : encode i = w := by
  unfold decodeEight at h
  split at h <;> cases h
  all_goals next hn => exact wordXYN_of_digits ho (BitVec.eq_of_toNat_eq hn)

theorem encode_of_decodeE (ho : opField w = 0xE) (h : decodeE w = .ok i) : encode i = w := by
  unfold decodeE at h
  split at h <;> cases h
  all_goals next hn => exact wordXNN_of_digits ho (BitVec.eq_of_toNat_eq hn)

theorem encode_of_decodeF (ho : opField w = 0xF) (h : decodeF w = .ok i) : encode i = w := by
  unfold decodeF at h
  split at h <;> cases h
  all_goals next hn => exact wordXNN_of_digits ho (BitVec.eq_of_toNat_eq hn)

/-- The two rows of primary opcodes 5 and 9, whose low digit must be 0 (R94). -/
theorem ok_of_lowDigitZero {j : Instr} {e : DecodeError}
    (h : (if nField w = 0 then (.ok j : Except DecodeError Instr) else .error e) = .ok i) :
    nField w = 0 ∧ j = i := by
  split at h
  · next hn => exact ⟨hn, Except.ok.inj h⟩
  · cases h

/-- The decoder drops no bit of a word it accepts (R91, R95): along the branch on the primary opcode (R94). -/
theorem encode_of_decode (h : decode w = .ok i) : encode i = w := by
  unfold decode at h
  split at h
  case h_1 => exact encode_of_decodeZero h
  case h_2 ho | h_3 ho | h_11 ho | h_12 ho => cases h; exact wordNNN_of_opField (BitVec.eq_of_toNat_eq ho)
  case h_4 ho | h_5 ho | h_7 ho | h_8 ho | h_13 ho => cases h; exact wordXNN_of_opField (BitVec.eq_of_toNat_eq ho)
  case h_6 ho | h_10 ho =>
    obtain ⟨hn, rfl⟩ := ok_of_lowDigitZero h
    exact wordXYN_of_digits (BitVec.eq_of_toNat_eq ho) hn
  case h_9 ho => exact encode_of_decodeEight (BitVec.eq_of_toNat_eq ho) h
  case h_14 ho => cases h; exact wordXYN_of_opField (BitVec.eq_of_toNat_eq ho)
  case h_15 ho => exact encode_of_decodeE (BitVec.eq_of_toNat_eq ho) h
  case h_16 =>
    have ho : (opField w).toNat = 0xF := by
      simp only [imp_false] at *
      omega
    exact encode_of_decodeF (BitVec.eq_of_toNat_eq ho) h

/-! ## The rows of the opcode map -/

/-- A word that decodes matches the mask and value of its instruction's row. -/
theorem and_rowOf_of_decode (h : decode w = .ok i) : w &&& (rowOf i).1 = (rowOf i).2 := by
  have hrow : encode i &&& (rowOf i).1 = (rowOf i).2 := Laws.RowMatch.forAll i
  rwa [encode_of_decode h] at hrow

end Sys2Proof

namespace Sys2Proof.Machine

/-- A row decodes as soon as the words it picks do: the other direction holds of every row. -/
theorem rowDecodes_of_decode {mask value : Word} {f : Word → Instr} (hrow : ∀ w, rowOf (f w) = (mask, value))
    (hdec : ∀ w, w &&& mask = value → decode w = .ok (f w)) : RowDecodes mask value f := by
  refine fun w => ⟨hdec w, fun h => ?_⟩
  have hw := and_rowOf_of_decode h
  rwa [hrow] at hw

/-- A row selected by its primary opcode alone. -/
theorem rowDecodes_of_opField (o : BitVec 4) {f : Word → Instr} (hrow : ∀ w, rowOf (f w) = (0xF000, wordNNN o 0))
    (hdec : ∀ w, opField w = o → decode w = .ok (f w)) : RowDecodes 0xF000 (wordNNN o 0) f :=
  rowDecodes_of_decode hrow fun w h => hdec w ((and_maskF000 w o).mp h)

/-- A row selected by its primary opcode and its low digit. -/
theorem rowDecodes_of_opField_nField (o n : BitVec 4) {f : Word → Instr}
    (hrow : ∀ w, rowOf (f w) = (0xF00F, wordXYN o 0 0 n))
    (hdec : ∀ w, opField w = o → nField w = n → decode w = .ok (f w)) : RowDecodes 0xF00F (wordXYN o 0 0 n) f :=
  rowDecodes_of_decode hrow fun w h =>
    have ⟨ho, hn⟩ := (and_maskF00F w o n).mp h
    hdec w ho hn

end Sys2Proof.Machine

/-! PROOFS of control transfer (41_control_flow.md): jumps and skips set `PC` and complete, whatever their target. -/

namespace Sys2Proof.Machine

/-! ## Completing with a new `PC` -/

theorem Completes.imp {i : Instr} {s : State} {P Q : State → Prop} (h : Completes i s P) (hPQ : ∀ t, P t → Q t) :
    Completes i s Q := by
  obtain ⟨t, hexec, hmode, hfault, hP⟩ := h
  exact ⟨t, hexec, hmode, hfault, hPQ t hP⟩

/-- Completing writes only `PC` and the mode, which no frame speaks of. -/
theorem frame_complete (u : Touched) (s : State) (n : Nat) : Frame u s (complete s n) :=
  ⟨fun _ _ => rfl, fun _ => rfl, fun _ => ⟨rfl, rfl⟩, fun _ => rfl, fun _ => rfl, fun _ => ⟨fun _ _ => rfl, rfl⟩,
    fun _ => rfl, fun _ _ => rfl, rfl, rfl, rfl⟩

/-- An instruction that only transfers control to `n` leaves `n` in `PC` and everything else as it was. -/
theorem completes_of_transfer {i : Instr} {s : State} {n : Nat} (h : exec i s = .next (complete s n)) :
    Completes i s fun t => PcIs t n ∧ Frame {} s t :=
  ⟨complete s n, h, complete_mode s n, complete_fault s n, BitVec.toNat_ofNat n 16, frame_complete {} s n⟩

/-! ## Skip targets (40_step_cycle.md R124) -/

theorem skipTarget_beq (s : State) (a b : Byte) :
    skipTarget s (a == b) = if a = b then s.pc.toNat + 4 else s.pc.toNat + 2 := by
  simp only [skipTarget, beq_iff_eq]

theorem skipTarget_bne (s : State) (a b : Byte) :
    skipTarget s (a != b) = if a = b then s.pc.toNat + 2 else s.pc.toNat + 4 := by
  simp only [skipTarget, bne_iff_ne, ite_not]

/-- A skip on equality. -/
theorem completes_of_skip_beq {i : Instr} {s : State} {a b : Byte}
    (h : exec i s = .next (complete s (skipTarget s (a == b)))) :
    Completes i s fun t => PcIs t (if a = b then s.pc.toNat + 4 else s.pc.toNat + 2) ∧ Frame {} s t := by
  rw [← skipTarget_beq]
  exact completes_of_transfer h

/-- A skip on inequality. -/
theorem completes_of_skip_bne {i : Instr} {s : State} {a b : Byte}
    (h : exec i s = .next (complete s (skipTarget s (a != b)))) :
    Completes i s fun t => PcIs t (if a = b then s.pc.toNat + 2 else s.pc.toNat + 4) ∧ Frame {} s t := by
  rw [← skipTarget_bne]
  exact completes_of_transfer h

/-! ## The rows of the jump and the skips -/

theorem rowDecodes_jp : RowDecodes 0xF000 0x1000 fun w => .jp (nnnField w) :=
  rowDecodes_of_opField 0x1 (fun _ => rfl) fun w ho => by simp [decode, ho]

theorem rowDecodes_sei : RowDecodes 0xF000 0x3000 fun w => .sei (xField w) (nnField w) :=
  rowDecodes_of_opField 0x3 (fun _ => rfl) fun w ho => by simp [decode, ho]

theorem rowDecodes_snei : RowDecodes 0xF000 0x4000 fun w => .snei (xField w) (nnField w) :=
  rowDecodes_of_opField 0x4 (fun _ => rfl) fun w ho => by simp [decode, ho]

theorem rowDecodes_ser : RowDecodes 0xF00F 0x5000 fun w => .ser (xField w) (yField w) :=
  rowDecodes_of_opField_nField 0x5 0x0 (fun _ => rfl) fun w ho hn => by simp [decode, ho, hn]

theorem rowDecodes_sner : RowDecodes 0xF00F 0x9000 fun w => .sner (xField w) (yField w) :=
  rowDecodes_of_opField_nField 0x9 0x0 (fun _ => rfl) fun w ho hn => by simp [decode, ho, hn]

/-! ## The obligations -/

/-- Settles O39: the four rows decode, and each skip is a transfer to its skip target. -/
theorem registerSkipsAdvanceByFourOrTwo : Obligations.RegisterSkipsAdvanceByFourOrTwo :=
  ⟨rowDecodes_sei, rowDecodes_snei, rowDecodes_ser, rowDecodes_sner, fun _ _ _ _ =>
    ⟨completes_of_skip_beq rfl, completes_of_skip_bne rfl, completes_of_skip_beq rfl, completes_of_skip_bne rfl⟩⟩

/-- Settles O40: `NNN` has 12 bits, so `PC` holds it unreduced. -/
theorem jumpSetsPc : Obligations.JumpSetsPc := by
  refine ⟨rowDecodes_jp, fun nnn s => ?_⟩
  have hjp : exec (.jp nnn) s = .next (complete s (jumpTarget nnn)) := rfl
  refine (completes_of_transfer hjp).imp fun t ⟨hpc, hframe⟩ => ⟨?_, hframe⟩
  have hlt : nnn.toNat < 65536 := by omega
  rw [hpc, jumpTarget, Nat.mod_eq_of_lt hlt]

end Sys2Proof.Machine

/-! PROOFS of the register and ALU instructions (42_alu.md): each writes `V[X]`, and a flag writer then `VF`, and completes
with `PC + 2`. -/

namespace Sys2Proof.Machine

/-! ## Completing after register writes -/

/-- A completed state that differs in registers only keeps any frame that allows those registers. -/
theorem frame_complete_registers {u : Touched} {s : State} {v : Vector Byte 16} (n : Nat)
    (h : ∀ r, u.regs r = false → getV { s with v := v } r = getV s r) : Frame u s (complete { s with v := v } n) :=
  ⟨h, fun _ => rfl, fun _ => ⟨rfl, rfl⟩, fun _ => rfl, fun _ => rfl, fun _ => ⟨fun _ _ => rfl, rfl⟩,
    fun _ => rfl, fun _ _ => rfl, rfl, rfl, rfl⟩

theorem pcIs_completeNext (s : State) : PcIs (completeNext s) (s.pc.toNat + 2) := BitVec.toNat_ofNat _ 16

theorem frame_setV (s : State) (x : Reg) (b : Byte) : Frame (touchReg x) s (completeNext (setV s x b)) :=
  frame_complete_registers _ fun _ hr => getV_setV_other s b (by simpa [touchReg] using hr)

theorem frame_setVAndFlag (s : State) (x : Reg) (b c : Byte) :
    Frame (touchRegAndFlag x) s (completeNext (setVAndFlag s x b c)) := by
  refine frame_complete_registers _ fun r hr => ?_
  have ⟨hx, hF⟩ : r ≠ x ∧ r ≠ 0xF := by simpa [touchRegAndFlag] using hr
  exact (getV_setVAndFlag s x r b c).trans (by rw [if_neg hF, if_neg hx])

/-- Where only `V[x]` may change, `VF` is kept unless it is `V[x]`. -/
theorem Frame.keeps_VF {s t : State} {x : Reg} (h : Frame (touchReg x) s t) (hx : x ≠ 0xF) :
    getV t 0xF = getV s 0xF :=
  h.1 0xF (beq_false_of_ne (Ne.symm hx))

variable {i : Instr} {s : State} {x : Reg} {b c : Byte}

/-- An instruction that writes `b` to `V[x]` and no flag. -/
theorem completes_of_setV (h : exec i s = .next (completeNext (setV s x b))) :
    Completes i s fun t => getV t x = b ∧ PcIs t (s.pc.toNat + 2) ∧ Frame (touchReg x) s t :=
  ⟨_, h, rfl, rfl, getV_setV_same s x b, pcIs_completeNext _, frame_setV s x b⟩

/-- An instruction that writes `b` to `V[x]` and no flag keeps `VF` unless `x` is `0xF`. -/
theorem completes_of_setV_keeping_VF (h : exec i s = .next (completeNext (setV s x b))) :
    Completes i s fun t => getV t x = b ∧ (x ≠ 0xF → getV t 0xF = getV s 0xF) ∧ PcIs t (s.pc.toNat + 2) ∧
      Frame (touchReg x) s t :=
  (completes_of_setV h).imp fun _ ⟨hx, hpc, hframe⟩ => ⟨hx, hframe.keeps_VF, hpc, hframe⟩

/-- An instruction that writes `b` to `V[x]` and then the flag `c` to `VF`: with `x = 0xF` the flag is what stays
(40_step_cycle.md R127). -/
theorem completes_of_setVAndFlag (h : exec i s = .next (completeNext (setVAndFlag s x b c))) :
    Completes i s fun t => getV t 0xF = c ∧ (x ≠ 0xF → getV t x = b) ∧ PcIs t (s.pc.toNat + 2) ∧
      Frame (touchRegAndFlag x) s t := by
  have hflag : getV (setVAndFlag s x b c) 0xF = c := by rw [getV_setVAndFlag, if_pos rfl]
  have hres : x ≠ 0xF → getV (setVAndFlag s x b c) x = b := fun hx => by
    rw [getV_setVAndFlag, if_neg hx, if_pos rfl]
  exact ⟨_, h, rfl, rfl, hflag, hres, pcIs_completeNext _, frame_setVAndFlag s x b c⟩

/-! ## The carry (42_alu.md R166) -/

theorem carryFlag_eq (a b : Byte) : carryFlag a b = if a.toNat + b.toNat > 255 then 1 else 0 := by
  simp only [carryFlag, flagByte, decide_eq_true_eq]

/-! ## The rows of the loads, the move, the logic operations and the additions -/

theorem rowDecodes_ldi : RowDecodes 0xF000 0x6000 fun w => .ldi (xField w) (nnField w) :=
  rowDecodes_of_opField 0x6 (fun _ => rfl) fun w ho => by simp [decode, ho]

theorem rowDecodes_addi : RowDecodes 0xF000 0x7000 fun w => .addi (xField w) (nnField w) :=
  rowDecodes_of_opField 0x7 (fun _ => rfl) fun w ho => by simp [decode, ho]

/-- A row of primary opcode 8, selected by its low digit (30_encoding.md R94). -/
theorem rowDecodes_of_decodeEight (n : BitVec 4) {f : Word → Instr}
    (hrow : ∀ w, rowOf (f w) = (0xF00F, wordXYN 0x8 0 0 n))
    (hdec : ∀ w, nField w = n → decodeEight w = .ok (f w)) : RowDecodes 0xF00F (wordXYN 0x8 0 0 n) f :=
  rowDecodes_of_opField_nField 0x8 n hrow fun w ho hn => by simp [decode, ho, hdec w hn]

theorem rowDecodes_mov : RowDecodes 0xF00F 0x8000 fun w => .mov (xField w) (yField w) :=
  rowDecodes_of_decodeEight 0x0 (fun _ => rfl) fun w hn => by simp [decodeEight, hn]

theorem rowDecodes_or : RowDecodes 0xF00F 0x8001 fun w => .or (xField w) (yField w) :=
  rowDecodes_of_decodeEight 0x1 (fun _ => rfl) fun w hn => by simp [decodeEight, hn]

theorem rowDecodes_and : RowDecodes 0xF00F 0x8002 fun w => .and (xField w) (yField w) :=
  rowDecodes_of_decodeEight 0x2 (fun _ => rfl) fun w hn => by simp [decodeEight, hn]

theorem rowDecodes_xor : RowDecodes 0xF00F 0x8003 fun w => .xor (xField w) (yField w) :=
  rowDecodes_of_decodeEight 0x3 (fun _ => rfl) fun w hn => by simp [decodeEight, hn]

theorem rowDecodes_add : RowDecodes 0xF00F 0x8004 fun w => .add (xField w) (yField w) :=
  rowDecodes_of_decodeEight 0x4 (fun _ => rfl) fun w hn => by simp [decodeEight, hn]

/-! ## The obligations -/

/-- Settles O32: both rows decode, and each instruction is one register write. -/
theorem loadImmediateAndMoveResults : Obligations.LoadImmediateAndMoveResults :=
  ⟨rowDecodes_ldi, rowDecodes_mov, fun _ _ _ _ => ⟨completes_of_setV rfl, completes_of_setV rfl⟩⟩

/-- Settles O33: the byte written is the sum modulo 256. -/
theorem addImmediateWrapsWithoutFlag : Obligations.AddImmediateWrapsWithoutFlag := by
  refine ⟨rowDecodes_addi, fun x nn s => ?_⟩
  refine (completes_of_setV_keeping_VF rfl).imp fun t ⟨hsum, hrest⟩ => ⟨?_, hrest⟩
  rw [hsum]
  exact BitVec.toNat_ofNat _ 8

/-- Settles O34: the byte written is the bitwise operation, bit by bit. -/
theorem logicOperationsAreBitwiseWithoutFlag : Obligations.LogicOperationsAreBitwiseWithoutFlag := by
  refine ⟨rowDecodes_or, rowDecodes_and, rowDecodes_xor, fun x y s => ⟨?_, ?_, ?_⟩⟩
  · exact (completes_of_setV_keeping_VF rfl).imp fun t ⟨hor, hrest⟩ =>
      ⟨fun k => by rw [hor, BitVec.getLsbD_or], hrest⟩
  · exact (completes_of_setV_keeping_VF rfl).imp fun t ⟨hand, hrest⟩ =>
      ⟨fun k => by rw [hand, BitVec.getLsbD_and], hrest⟩
  · exact (completes_of_setV_keeping_VF rfl).imp fun t ⟨hxor, hrest⟩ =>
      ⟨fun k => by rw [hxor, BitVec.getLsbD_xor], hrest⟩

/-- Settles O35: the flag is the carry of the old operands, and the sum stays in `V[X]` unless the flag overwrites it. -/
theorem addSetsTheCarryFlag : Obligations.AddSetsTheCarryFlag := by
  refine ⟨rowDecodes_add, fun x y s => ?_⟩
  refine (completes_of_setVAndFlag rfl).imp fun t ⟨hflag, hsum, hrest⟩ => ⟨?_, fun hx => ?_, hrest⟩
  · rw [hflag, carryFlag_eq]
  · rw [hsum hx]
    exact BitVec.toNat_ofNat _ 8

end Sys2Proof.Machine

/-! PROOFS of the index register (43_index_memory.md R190 to R192): each instruction writes `I` and completes with
`PC + 2`. -/

namespace Sys2Proof.Machine

/-! ## Completing after a write of `I` -/

/-- Completing after a write of `I` keeps everything else, `VF` among it. -/
theorem frame_setI (s : State) (n : Nat) : Frame { index := true } s (completeNext (setI s n)) :=
  ⟨fun _ _ => rfl, nofun, fun _ => ⟨rfl, rfl⟩, fun _ => rfl, fun _ => rfl, fun _ => ⟨fun _ _ => rfl, rfl⟩,
    fun _ => rfl, fun _ _ => rfl, rfl, rfl, rfl⟩

/-- An instruction that only writes `n` to `I`, which keeps it modulo 65536 (10_state.md R22). -/
theorem completes_of_setI {i : Instr} {s : State} {n : Nat} (h : exec i s = .next (completeNext (setI s n))) :
    Completes i s fun t => t.i.toNat = n % 65536 ∧ PcIs t (s.pc.toNat + 2) ∧ Frame { index := true } s t :=
  ⟨_, h, rfl, rfl, BitVec.toNat_ofNat n 16, pcIs_completeNext _, frame_setI s n⟩

/-- Where the value fits in 16 bits, `I` holds it unreduced. -/
theorem completes_of_setI_of_lt {i : Instr} {s : State} {n : Nat} (h : exec i s = .next (completeNext (setI s n)))
    (hn : n < 65536) :
    Completes i s fun t => t.i.toNat = n ∧ PcIs t (s.pc.toNat + 2) ∧ Frame { index := true } s t :=
  (completes_of_setI h).imp fun _ ⟨hi, hrest⟩ => ⟨hi.trans (Nat.mod_eq_of_lt hn), hrest⟩

/-- The address of the last glyph a byte can name, 1275, is far below 65536 (R192). -/
theorem glyphAddress_lt (v : Byte) : glyphAddress v < 65536 := by
  have hv := v.isLt
  unfold glyphAddress Config.glyphBytes
  omega

/-! ## The rows -/

/-- A row of primary opcode `F`, selected by its low byte (30_encoding.md R94). -/
theorem rowDecodes_of_decodeF (nn : Byte) {f : Word → Instr}
    (hrow : ∀ w, rowOf (f w) = (0xF0FF, wordXNN 0xF 0 nn))
    (hdec : ∀ w, nnField w = nn → decodeF w = .ok (f w)) : RowDecodes 0xF0FF (wordXNN 0xF 0 nn) f :=
  rowDecodes_of_decode hrow fun w h => by
    obtain ⟨ho, hn⟩ := (and_maskF0FF w 0xF nn).mp h
    simp [decode, ho, hdec w hn]

theorem rowDecodes_ldix : RowDecodes 0xF000 0xA000 fun w => .ldix (nnnField w) :=
  rowDecodes_of_opField 0xA (fun _ => rfl) fun w ho => by simp [decode, ho]

theorem rowDecodes_addix : RowDecodes 0xF0FF 0xF01E fun w => .addix (xField w) :=
  rowDecodes_of_decodeF 0x1E (fun _ => rfl) fun w hn => by simp [decodeF, hn]

theorem rowDecodes_font : RowDecodes 0xF0FF 0xF029 fun w => .font (xField w) :=
  rowDecodes_of_decodeF 0x29 (fun _ => rfl) fun w hn => by simp [decodeF, hn]

/-! ## The obligation -/

/-- Settles O45: the three rows decode, and each instruction is one write of `I`; only the sum of `FX1E` can pass 65535. -/
theorem indexRegisterResults : Obligations.IndexRegisterResults := by
  refine ⟨rowDecodes_ldix, rowDecodes_addix, rowDecodes_font, fun nnn x s => ⟨?_, ?_, ?_⟩⟩
  · have hlt : nnn.toNat < 65536 := by omega
    exact completes_of_setI_of_lt rfl hlt
  · exact completes_of_setI rfl
  · exact completes_of_setI_of_lt rfl (glyphAddress_lt _)

end Sys2Proof.Machine

/-! PROOFS of the display instructions (44_display.md). -/

namespace Sys2Proof.Machine

/-! ## Completing after a write of the screen -/

/-- Replacing the frame buffer and completing touches no state but the screen, `VF` among what is kept (R210). -/
theorem frame_setScreen (s : State) (fb : Vector (BitVec 64) 32) :
    Frame { screen := true } s (completeNext (setScreen s fb)) :=
  ⟨fun _ _ => rfl, fun _ => rfl, fun _ => ⟨rfl, rfl⟩, fun _ => rfl, fun _ => rfl, nofun,
    fun _ => rfl, fun _ _ => rfl, rfl, rfl, rfl⟩

/-- An instruction that only replaces the frame buffer by `fb`. -/
theorem completes_of_setScreen {i : Instr} {s : State} {fb : Vector (BitVec 64) 32}
    (h : exec i s = .next (completeNext (setScreen s fb))) :
    Completes i s fun t => t.fb = fb ∧ t.dirty = true ∧ PcIs t (s.pc.toNat + 2) ∧ Frame { screen := true } s t :=
  ⟨_, h, rfl, rfl, rfl, rfl, pcIs_completeNext _, frame_setScreen s fb⟩

/-- A completed instruction other than `IDLE` reports `Executed`, with `drew` set exactly for the two that draw (R125). -/
theorem reportOf_completeNext {i : Instr} (hi : i ≠ .idle) (s : State) :
    reportOf i (.next (completeNext s)) = ⟨.executed, drawsScreen i⟩ := by
  simp only [reportOf, completeNext, complete_mode, if_neg hi]

/-! ## A row of one word -/

/-- A row whose mask is every bit holds the one word `value` (30_encoding.md R94). -/
theorem rowDecodes_of_word {value : Word} {i : Instr} (hrow : rowOf i = (0xFFFF, value))
    (hdec : decode value = .ok i) : RowDecodes 0xFFFF value fun _ => i :=
  rowDecodes_of_decode (fun _ => hrow) fun w h => by
    have hw : w = value := BitVec.and_allOnes.symm.trans h
    rw [hw, hdec]

theorem rowDecodes_cls : RowDecodes 0xFFFF 0x00E0 fun _ => .cls := rowDecodes_of_word rfl rfl

/-! ## The obligation -/

/-- Settles O50: `00E0` replaces the frame buffer by the blank screen, whose cells are all 0, and completes. -/
theorem clearScreenResult : Obligations.ClearScreenResult := by
  refine ⟨rowDecodes_cls, fun s => ?_⟩
  have hcls : exec .cls s = .next (completeNext (setScreen s blankScreen)) := rfl
  refine ⟨(completes_of_setScreen hcls).imp fun t ⟨hfb, hrest⟩ => ⟨fun x y => ?_, hrest⟩, ?_⟩
  · rw [hfb, pixel_blankScreen]
  · rw [hcls]
    exact reportOf_completeNext (i := .cls) nofun _

end Sys2Proof.Machine

/-! PROOFS of the timer instructions (45_keypad_timers.md R233 to R235): `FX07` is one register write, `FX15` and `FX18`
one timer write, each completing with `PC + 2`. -/

namespace Sys2Proof.Machine

/-! ## Completing after a timer write -/

/-- Completing after a write of the delay timer keeps everything else. -/
theorem frame_setDt (s : State) (b : Byte) : Frame { dt := true } s (completeNext (setDt s b)) :=
  ⟨fun _ _ => rfl, fun _ => rfl, fun _ => ⟨rfl, rfl⟩, nofun, fun _ => rfl, fun _ => ⟨fun _ _ => rfl, rfl⟩,
    fun _ => rfl, fun _ _ => rfl, rfl, rfl, rfl⟩

/-- Completing after a write of the sound timer keeps everything else. -/
theorem frame_setSt (s : State) (b : Byte) : Frame { st := true } s (completeNext (setSt s b)) :=
  ⟨fun _ _ => rfl, fun _ => rfl, fun _ => ⟨rfl, rfl⟩, fun _ => rfl, nofun, fun _ => ⟨fun _ _ => rfl, rfl⟩,
    fun _ => rfl, fun _ _ => rfl, rfl, rfl, rfl⟩

variable {i : Instr} {s : State} {b : Byte}

/-- An instruction that only writes `b` to the delay timer. -/
theorem completes_of_setDt (h : exec i s = .next (completeNext (setDt s b))) :
    Completes i s fun t => t.dt = b ∧ PcIs t (s.pc.toNat + 2) ∧ Frame { dt := true } s t :=
  ⟨_, h, rfl, rfl, rfl, pcIs_completeNext _, frame_setDt s b⟩

/-- An instruction that only writes `b` to the sound timer. -/
theorem completes_of_setSt (h : exec i s = .next (completeNext (setSt s b))) :
    Completes i s fun t => t.st = b ∧ PcIs t (s.pc.toNat + 2) ∧ Frame { st := true } s t :=
  ⟨_, h, rfl, rfl, rfl, pcIs_completeNext _, frame_setSt s b⟩

/-! ## The rows -/

theorem rowDecodes_lddt : RowDecodes 0xF0FF 0xF007 fun w => .lddt (xField w) :=
  rowDecodes_of_decodeF 0x07 (fun _ => rfl) fun w hn => by simp [decodeF, hn]

theorem rowDecodes_stdt : RowDecodes 0xF0FF 0xF015 fun w => .stdt (xField w) :=
  rowDecodes_of_decodeF 0x15 (fun _ => rfl) fun w hn => by simp [decodeF, hn]

theorem rowDecodes_stst : RowDecodes 0xF0FF 0xF018 fun w => .stst (xField w) :=
  rowDecodes_of_decodeF 0x18 (fun _ => rfl) fun w hn => by simp [decodeF, hn]

/-! ## The obligation -/

/-- Settles O56: the three rows decode, `FX07` is one register write and the other two are one timer write each. -/
theorem timerInstructionsCopyTheTimers : Obligations.TimerInstructionsCopyTheTimers := by
  refine ⟨rowDecodes_lddt, rowDecodes_stdt, rowDecodes_stst, fun x s => ⟨?_, ?_, ?_⟩⟩
  · have hlddt : exec (.lddt x) s = .next (completeNext (setV s x s.dt)) := rfl
    exact completes_of_setV hlddt
  · have hstdt : exec (.stdt x) s = .next (completeNext (setDt s (getV s x))) := rfl
    exact completes_of_setDt hstdt
  · have hstst : exec (.stst x) s = .next (completeNext (setSt s (getV s x))) := rfl
    exact completes_of_setSt hstst

end Sys2Proof.Machine

/-! PROOFS of the encoding (30_encoding.md): the decoder undoes the encoder, refuses exactly the unknown words, and
reads the row that a word's digits match. -/

namespace Sys2Proof

variable {w : Word}

/-! ## The decoder undoes the encoder -/

/-- Every instruction's word decodes to the instruction, operands included: along the branch on the primary opcode (R94),
each field of a built word being the operand it was built from. -/
theorem decode_encode (i : Instr) : decode (encode i) = .ok i := by
  cases i with
  | idle | cls | ret => rfl
  | jp | call | ldix | jpv0 => simp [encode, decode]
  | sei | snei | ldi | addi | rnd => simp [encode, decode]
  | ser | sner | drw => simp [encode, decode]
  | mov | or | and | xor | add | sub | shr | subn | shl => simp [encode, decode, decodeEight]
  | skp | sknp => simp [encode, decode, decodeE]
  | lddt | wkey | stdt | stst | addix | font | bcd | stm | ldm => simp [encode, decode, decodeF]

/-- Settles O2: the fields of an encoded word are the instruction's operands. -/
theorem decodingAnEncodedInstructionGivesItBack : Obligations.DecodingAnEncodedInstructionGivesItBack :=
  decode_encode

/-- Settles O3: a word is built from its fields, and the decoder keeps every field it does not check. -/
theorem encodingADecodedWordGivesItBack : Obligations.EncodingADecodedWordGivesItBack :=
  fun _ _ => encode_of_decode

/-! ## The unknown words -/

/-- `r` is the answer the decoder owes the word `w`: a refusal naming it where it is unknown, an instruction elsewhere
(R96). -/
def AnswersWord (w : Word) (unknown : Bool) (r : Except DecodeError Instr) : Prop :=
  (unknown = true → r = .error (.unknownOpcode w)) ∧ (unknown = false → ∃ i, r = .ok i)

theorem AnswersWord.ok {u : Bool} {i : Instr} (h : u = false) : AnswersWord w u (.ok i) :=
  ⟨fun hu => by simp [h] at hu, fun _ => ⟨i, rfl⟩⟩

theorem AnswersWord.refused {u : Bool} (h : u = true) : AnswersWord w u (.error (.unknownOpcode w)) :=
  ⟨fun _ => rfl, fun hu => by simp [h] at hu⟩

/-- Class (a) by its primary opcode, as the other classes are given. -/
theorem unknownZero_eq (w : Word) :
    unknownZero w = (w.toNat / 4096 == 0 && (w.toNat != 0 && w.toNat != 0x00E0 && w.toNat != 0x00EE)) := by
  rw [Bool.eq_iff_iff]
  simp only [unknownZero, Bool.and_eq_true, decide_eq_true_eq, bne_iff_ne, beq_iff_eq]
  omega

/-- At each of the six primary opcodes that check further digits its own class decides, and elsewhere no word is unknown
(R96). -/
theorem unknownWord_of_opField (w : Word) :
    unknownWord w =
      match (opField w).toNat with
      | 0x0 => unknownZero w
      | 0x5 => unknownFive w
      | 0x8 => unknownEight w
      | 0x9 => unknownNine w
      | 0xE => unknownE w
      | 0xF => unknownF w
      | _ => false := by
  simp only [unknownWord, unknownZero_eq, unknownFive, unknownEight, unknownNine, unknownE, unknownF, ← toNat_opField]
  generalize (opField w).toNat = d
  split <;> simp_all

theorem answers_decodeZero (ho : (opField w).toNat = 0x0) : AnswersWord w (unknownZero w) (decodeZero w) := by
  rw [toNat_opField] at ho
  unfold decodeZero
  split
  case h_4 => exact .refused (by simp_all [unknownZero_eq])
  all_goals next hw => exact .ok (by simp [unknownZero_eq, hw])

theorem answers_decodeEight (ho : (opField w).toNat = 0x8) : AnswersWord w (unknownEight w) (decodeEight w) := by
  rw [toNat_opField] at ho
  unfold decodeEight
  simp only [toNat_nField]
  split
  case h_10 => exact .refused (by simp_all [unknownEight]; omega)
  all_goals next hn => exact .ok (by simp [unknownEight, hn])

theorem answers_decodeE (ho : (opField w).toNat = 0xE) : AnswersWord w (unknownE w) (decodeE w) := by
  rw [toNat_opField] at ho
  unfold decodeE
  simp only [toNat_nnField]
  split
  case h_3 => exact .refused (by simp_all [unknownE])
  all_goals next hn => exact .ok (by simp [unknownE, hn])

theorem answers_decodeF (ho : (opField w).toNat = 0xF) : AnswersWord w (unknownF w) (decodeF w) := by
  rw [toNat_opField] at ho
  unfold decodeF
  simp only [toNat_nnField]
  split
  case h_10 => exact .refused (by simp_all [unknownF])
  all_goals next hn => exact .ok (by simp [unknownF, hn])

/-- The two rows of primary opcodes 5 and 9: their unknown words are those whose low digit is not 0 (R96 (b), (d)). -/
theorem answers_lowDigitZero {u : Bool} {i : Instr} (hu : u = (w.toNat % 16 != 0)) :
    AnswersWord w u (if nField w = 0 then .ok i else .error (.unknownOpcode w)) := by
  rw [← toNat_nField] at hu
  split
  · next hn => exact .ok (by simp [hu, hn])
  · next hn => exact .refused (by simpa [hu] using fun h => hn (BitVec.eq_of_toNat_eq h))

/-- The decoder and the list of unknown words agree, along the branch on the primary opcode (R94, R96). -/
theorem answers_decode (w : Word) : AnswersWord w (unknownWord w) (decode w) := by
  have hu := unknownWord_of_opField w
  unfold decode
  split
  case h_1 ho => rw [hu, ho]; exact answers_decodeZero ho
  case h_6 ho => rw [hu, ho]; exact answers_lowDigitZero (by simp [unknownFive, ← toNat_opField, ho])
  case h_9 ho => rw [hu, ho]; exact answers_decodeEight ho
  case h_10 ho => rw [hu, ho]; exact answers_lowDigitZero (by simp [unknownNine, ← toNat_opField, ho])
  case h_15 ho => rw [hu, ho]; exact answers_decodeE ho
  case h_16 =>
    have ho : (opField w).toNat = 0xF := by
      simp only [imp_false] at *
      omega
    rw [hu, ho]
    exact answers_decodeF ho
  all_goals next ho => rw [hu, ho]; exact .ok rfl

/-- Settles O4: the decoder branches on the primary opcode, and so does the list of unknown words. -/
theorem decoderRefusesExactlyTheUnknownWords : Obligations.DecoderRefusesExactlyTheUnknownWords :=
  answers_decode

/-- Settles O1: each word but the last is, digit by digit, the word of its instruction; the last is of class (b). -/
theorem specWordsDecodeToTheirInstructions : Obligations.SpecWordsDecodeToTheirInstructions :=
  ⟨decode_encode .idle, decode_encode .ret, decode_encode (.jp 0x204), decode_encode (.ldi 1 0x1F),
    decode_encode (.add 1 2), decode_encode (.ldix 0x300), decode_encode (.drw 0 1 5), decode_encode (.skp 1),
    decode_encode (.bcd 3), (answers_decode 0x5121).1 rfl⟩

/-! ## Byte streams -/

/-- Settles O7: the two bytes taken form the word, the first being the high byte. -/
theorem instructionIsTwoBytesBigEndian : Obligations.InstructionIsTwoBytesBigEndian := by
  refine ⟨fun hi lo rest w hw => ?_, fun bs hbs => ?_⟩
  · have hword : wordOfBytes hi lo = w := BitVec.eq_of_toNat_eq (by rw [toNat_wordOfBytes, hw])
    rw [decodeBytes, hword]
    cases decode w <;> rfl
  · match bs, hbs with
    | [], _ | [_], _ => rfl

end Sys2Proof

namespace Sys2Proof.Machine

/-! ## The remaining rows -/

theorem rowDecodes_idle : RowDecodes 0xFFFF 0x0000 fun _ => .idle := rowDecodes_of_word rfl rfl

theorem rowDecodes_ret : RowDecodes 0xFFFF 0x00EE fun _ => .ret := rowDecodes_of_word rfl rfl

theorem rowDecodes_call : RowDecodes 0xF000 0x2000 fun w => .call (nnnField w) :=
  rowDecodes_of_opField 0x2 (fun _ => rfl) fun w ho => by simp [decode, ho]

theorem rowDecodes_jpv0 : RowDecodes 0xF000 0xB000 fun w => .jpv0 (nnnField w) :=
  rowDecodes_of_opField 0xB (fun _ => rfl) fun w ho => by simp [decode, ho]

theorem rowDecodes_rnd : RowDecodes 0xF000 0xC000 fun w => .rnd (xField w) (nnField w) :=
  rowDecodes_of_opField 0xC (fun _ => rfl) fun w ho => by simp [decode, ho]

theorem rowDecodes_drw : RowDecodes 0xF000 0xD000 fun w => .drw (xField w) (yField w) (nField w) :=
  rowDecodes_of_opField 0xD (fun _ => rfl) fun w ho => by simp [decode, ho]

theorem rowDecodes_sub : RowDecodes 0xF00F 0x8005 fun w => .sub (xField w) (yField w) :=
  rowDecodes_of_decodeEight 0x5 (fun _ => rfl) fun w hn => by simp [decodeEight, hn]

theorem rowDecodes_shr : RowDecodes 0xF00F 0x8006 fun w => .shr (xField w) (yField w) :=
  rowDecodes_of_decodeEight 0x6 (fun _ => rfl) fun w hn => by simp [decodeEight, hn]

theorem rowDecodes_subn : RowDecodes 0xF00F 0x8007 fun w => .subn (xField w) (yField w) :=
  rowDecodes_of_decodeEight 0x7 (fun _ => rfl) fun w hn => by simp [decodeEight, hn]

theorem rowDecodes_shl : RowDecodes 0xF00F 0x800E fun w => .shl (xField w) (yField w) :=
  rowDecodes_of_decodeEight 0xE (fun _ => rfl) fun w hn => by simp [decodeEight, hn]

/-- A row of primary opcode `E`, selected by its low byte (30_encoding.md R94). -/
theorem rowDecodes_of_decodeE (nn : Byte) {f : Word → Instr}
    (hrow : ∀ w, rowOf (f w) = (0xF0FF, wordXNN 0xE 0 nn))
    (hdec : ∀ w, nnField w = nn → decodeE w = .ok (f w)) : RowDecodes 0xF0FF (wordXNN 0xE 0 nn) f :=
  rowDecodes_of_decode hrow fun w h => by
    obtain ⟨ho, hn⟩ := (and_maskF0FF w 0xE nn).mp h
    simp [decode, ho, hdec w hn]

theorem rowDecodes_skp : RowDecodes 0xF0FF 0xE09E fun w => .skp (xField w) :=
  rowDecodes_of_decodeE 0x9E (fun _ => rfl) fun w hn => by simp [decodeE, hn]

theorem rowDecodes_sknp : RowDecodes 0xF0FF 0xE0A1 fun w => .sknp (xField w) :=
  rowDecodes_of_decodeE 0xA1 (fun _ => rfl) fun w hn => by simp [decodeE, hn]

theorem rowDecodes_wkey : RowDecodes 0xF0FF 0xF00A fun w => .wkey (xField w) :=
  rowDecodes_of_decodeF 0x0A (fun _ => rfl) fun w hn => by simp [decodeF, hn]

theorem rowDecodes_bcd : RowDecodes 0xF0FF 0xF033 fun w => .bcd (xField w) :=
  rowDecodes_of_decodeF 0x33 (fun _ => rfl) fun w hn => by simp [decodeF, hn]

theorem rowDecodes_stm : RowDecodes 0xF0FF 0xF055 fun w => .stm (xField w) :=
  rowDecodes_of_decodeF 0x55 (fun _ => rfl) fun w hn => by simp [decodeF, hn]

theorem rowDecodes_ldm : RowDecodes 0xF0FF 0xF065 fun w => .ldm (xField w) :=
  rowDecodes_of_decodeF 0x65 (fun _ => rfl) fun w hn => by simp [decodeF, hn]

/-! ## The row a word matches -/

/-- A word that matches an instruction's row decodes to an instruction of that row: the operands are the word's own
fields. -/
theorem decode_of_and_rowOf {w : Word} (j : Instr) (h : w &&& (rowOf j).1 = (rowOf j).2) :
    ∃ i, decode w = .ok i ∧ rowOf i = rowOf j := by
  cases j with
  | idle => exact ⟨_, (rowDecodes_idle w).mp h, rfl⟩
  | cls => exact ⟨_, (rowDecodes_cls w).mp h, rfl⟩
  | ret => exact ⟨_, (rowDecodes_ret w).mp h, rfl⟩
  | jp => exact ⟨_, (rowDecodes_jp w).mp h, rfl⟩
  | call => exact ⟨_, (rowDecodes_call w).mp h, rfl⟩
  | sei => exact ⟨_, (rowDecodes_sei w).mp h, rfl⟩
  | snei => exact ⟨_, (rowDecodes_snei w).mp h, rfl⟩
  | ser => exact ⟨_, (rowDecodes_ser w).mp h, rfl⟩
  | ldi => exact ⟨_, (rowDecodes_ldi w).mp h, rfl⟩
  | addi => exact ⟨_, (rowDecodes_addi w).mp h, rfl⟩
  | mov => exact ⟨_, (rowDecodes_mov w).mp h, rfl⟩
  | or => exact ⟨_, (rowDecodes_or w).mp h, rfl⟩
  | and => exact ⟨_, (rowDecodes_and w).mp h, rfl⟩
  | xor => exact ⟨_, (rowDecodes_xor w).mp h, rfl⟩
  | add => exact ⟨_, (rowDecodes_add w).mp h, rfl⟩
  | sub => exact ⟨_, (rowDecodes_sub w).mp h, rfl⟩
  | shr => exact ⟨_, (rowDecodes_shr w).mp h, rfl⟩
  | subn => exact ⟨_, (rowDecodes_subn w).mp h, rfl⟩
  | shl => exact ⟨_, (rowDecodes_shl w).mp h, rfl⟩
  | sner => exact ⟨_, (rowDecodes_sner w).mp h, rfl⟩
  | ldix => exact ⟨_, (rowDecodes_ldix w).mp h, rfl⟩
  | jpv0 => exact ⟨_, (rowDecodes_jpv0 w).mp h, rfl⟩
  | rnd => exact ⟨_, (rowDecodes_rnd w).mp h, rfl⟩
  | drw => exact ⟨_, (rowDecodes_drw w).mp h, rfl⟩
  | skp => exact ⟨_, (rowDecodes_skp w).mp h, rfl⟩
  | sknp => exact ⟨_, (rowDecodes_sknp w).mp h, rfl⟩
  | lddt => exact ⟨_, (rowDecodes_lddt w).mp h, rfl⟩
  | wkey => exact ⟨_, (rowDecodes_wkey w).mp h, rfl⟩
  | stdt => exact ⟨_, (rowDecodes_stdt w).mp h, rfl⟩
  | stst => exact ⟨_, (rowDecodes_stst w).mp h, rfl⟩
  | addix => exact ⟨_, (rowDecodes_addix w).mp h, rfl⟩
  | font => exact ⟨_, (rowDecodes_font w).mp h, rfl⟩
  | bcd => exact ⟨_, (rowDecodes_bcd w).mp h, rfl⟩
  | stm => exact ⟨_, (rowDecodes_stm w).mp h, rfl⟩
  | ldm => exact ⟨_, (rowDecodes_ldm w).mp h, rfl⟩

/-- Settles O5: a word that decodes is its instruction's word, which matches the row; a word that matches a row decodes by
that row. -/
theorem eachWordMatchesOnlyTheRowItDecodesTo : Obligations.EachWordMatchesOnlyTheRowItDecodesTo :=
  fun _ => ⟨fun _ => and_rowOf_of_decode, decode_of_and_rowOf⟩

end Sys2Proof.Machine

/-! PROOFS of the word write (20_memory.md R66), of fetch (40_step_cycle.md R121) and of what a `Step` does with the
fetched word (R122, R123, R126). -/

namespace Sys2Proof.Machine

/-! ## Words in memory -/

theorem toNat_readWord (m : Memory) (a : Nat) :
    (Memory.readWord m a).toNat = 256 * (Memory.read m a).toNat + (Memory.read m (a + 1)).toNat :=
  toNat_wordOfBytes _ _

/-- The two bytes a word write leaves, in a canonical memory: the high byte first (R66). -/
theorem Memory.read_writeWord {m : Memory} (hm : Memory.wf m) (a : Nat) (w : Word) :
    Memory.read (Memory.writeWord m a w) a = w.extractLsb' 8 8 ∧
    Memory.read (Memory.writeWord m a w) (a + 1) = w.extractLsb' 0 8 :=
  ⟨Memory.read_writeBytes_inside hm a (bytesOfWord w) (k := 0) (by simp [bytesOfWord]),
    Memory.read_writeBytes_inside hm a (bytesOfWord w) (k := 1) (by simp [bytesOfWord])⟩

/-- Settles O6: the word write is the write of its two bytes, high byte first. -/
theorem wordWriteIsBigEndianAndReadsBack : Obligations.WordWriteIsBigEndianAndReadsBack := by
  intro m a w hm
  obtain ⟨hhi, hlo⟩ := Memory.read_writeWord hm a w
  refine ⟨?_, ?_, fun q hq hq' => ?_, ?_, Memory.writeBytes_wf hm a _⟩
  · have hw := w.isLt
    rw [hhi, BitVec.extractLsb'_toNat, Nat.shiftRight_eq_div_pow]
    omega
  · rw [hlo, BitVec.extractLsb'_toNat, Nat.shiftRight_zero]
  · refine Memory.read_writeBytes_other a (bytesOfWord w) ?_
    simp only [bytesOfWord, List.length_cons, List.length_nil]
    omega
  · rw [Memory.readWord, hhi, hlo, wordOfBytes_bytes]

/-! ## Fetch -/

/-- The fetch reads `w` exactly when both bytes are in range and form `w` (R121). -/
theorem fetch_eq_ok {s : State} {w : Word} :
    fetch s = .ok w ↔ s.pc.toNat ≤ 0xFFE ∧
      w.toNat = 256 * (Memory.read s.mem s.pc.toNat).toNat + (Memory.read s.mem (s.pc.toNat + 1)).toNat := by
  rw [← toNat_readWord, ← BitVec.toNat_inj.symm.trans eq_comm]
  rcases fetch_cases s with ⟨hp, hf⟩ | ⟨hp, hf⟩
  · simp [hf, hp]
  · simp [hf, hp]

/-- The fetch faults exactly when one of its two bytes is out of range, at the lowest such address (R121). -/
theorem fetch_eq_error {s : State} {a : Nat} :
    fetch s = .error a ↔ 0xFFE < s.pc.toNat ∧ a = max 4096 s.pc.toNat := by
  rcases fetch_cases s with ⟨hp, hf⟩ | ⟨hp, hf⟩
  · simp [hf, hp]
  · simp [hf, hp, eq_comm]

/-- Settles O8: the two outcomes of a fetch. -/
theorem fetchReadsTheBigEndianWordAtPc : Obligations.FetchReadsTheBigEndianWordAtPc :=
  fun s => ⟨fun hp => ⟨_, fetch_eq_ok.mpr ⟨hp, toNat_readWord s.mem s.pc.toNat⟩, toNat_readWord _ _⟩,
    fun hp => fetch_eq_error.mpr ⟨hp, rfl⟩⟩

/-! ## A `Step`, by what it fetches -/

theorem raiseFault_eq_Faulted (s : State) (kind : FaultKind) (w : Word) (info : Nat) :
    raiseFault s kind w info = Faulted s kind w info := rfl

section
variable {s : State} {w : Word} {i : Instr} (hm : s.mode ≠ .halted)
include hm

theorem engineStep_of_fetch_error {a : Nat} (hf : fetch s = .error a) :
    engineStep s = .next (Faulted s .outOfRangeMemoryAccess 0 a) := by
  simp only [engineStep_of_running hm, fetchAndPerform, hf, raiseFault_eq_Faulted]

theorem engineStep_of_decode (hf : fetch s = .ok w) (hd : decode w = .ok i) : engineStep s = exec i s := by
  simp only [engineStep_of_running hm, fetchAndPerform, hf, performWord, hd]

theorem engineStep_of_refused {e : DecodeError} (hf : fetch s = .ok w) (hd : decode w = .error e) :
    engineStep s = .next (Faulted s .unknownOpcode w 0) := by
  simp only [engineStep_of_running hm, fetchAndPerform, hf, performWord, hd, unknownOpcode_eq, raiseFault_eq_Faulted]

theorem stepReport_of_fetch_error {a : Nat} (hf : fetch s = .error a) : stepReport s = ⟨.fault, false⟩ := by
  simp only [stepReport_of_running hm, fetchReport, hf]

theorem stepReport_of_decode (hf : fetch s = .ok w) (hd : decode w = .ok i) :
    stepReport s = reportOf i (exec i s) := by
  simp only [stepReport_of_running hm, fetchReport, hf, hd]

theorem stepReport_of_refused {e : DecodeError} (hf : fetch s = .ok w) (hd : decode w = .error e) :
    stepReport s = ⟨.fault, false⟩ := by
  simp only [stepReport_of_running hm, fetchReport, hf, hd]
  rfl

end

/-! ## Which step comes next -/

theorem step_of_agenda {s : State} {e : Event} {rest : List Event} (h : s.agenda = e :: rest) :
    step s = performEvent { s with agenda := rest } e := by
  rcases step_cases s with ⟨hnil, _⟩ | ⟨e', rest', hcons, hstep⟩
  · simp [h] at hnil
  · obtain ⟨rfl, rfl⟩ := List.cons.inj (h.symm.trans hcons)
    exact hstep

theorem step_of_no_agenda {s : State} (h : s.agenda = []) :
    step s = performEvent { s with turns := s.turns + 1 } (allowedEvent (Config.environment s.turns)) := by
  rcases step_cases s with ⟨_, hstep⟩ | ⟨e, rest, hcons, _⟩
  · exact hstep
  · simp [h] at hcons

/-- Settles O9: fetch and decoding read neither the line of events nor the counter of choices, so they are the same in the
state with the event taken off. -/
theorem stepRunsTheDecodedInstruction : Obligations.StepRunsTheDecodedInstruction := by
  intro s w i hm hp hw hd
  have hf : fetch s = .ok w := fetch_eq_ok.mpr ⟨hp, hw⟩
  refine ⟨engineStep_of_decode hm hf hd, fun rest hrest => ?_, fun hnil => ?_⟩
  · rw [step_of_agenda hrest]
    exact engineStep_of_decode (s := { s with agenda := rest }) hm hf hd
  · rw [step_of_no_agenda hnil]
    split
    · next he =>
      rw [he]
      exact engineStep_of_decode (s := { s with turns := s.turns + 1 }) hm hf hd
    · rfl

/-! ## Steps that fault before an instruction runs -/

/-- Settles O14: the fetch fault is the whole outcome of the step. -/
theorem fetchOutOfRangeHalts : Obligations.FetchOutOfRangeHalts := fun s hm hp =>
  have hf : fetch s = .error (max 4096 s.pc.toNat) := fetch_eq_error.mpr ⟨hp, rfl⟩
  ⟨engineStep_of_fetch_error hm hf, stepReport_of_fetch_error hm hf⟩

/-- Settles O15: the decoder refuses every unknown word. -/
theorem unknownOpcodeHalts : Obligations.UnknownOpcodeHalts := fun _ w hm hp hw hu =>
  have hf := fetch_eq_ok.mpr ⟨hp, hw⟩
  have hd := (answers_decode w).1 hu
  ⟨engineStep_of_refused hm hf hd, stepReport_of_refused hm hf hd⟩

/-! ## The idle word (R122) -/

/-- `PC`, the mode and the fault record lie outside every frame. -/
theorem frame_control (u : Touched) (s : State) (p : Word) (m : Mode) (f : Option FaultRecord) :
    Frame u s { s with pc := p, mode := m, fault := f } :=
  ⟨fun _ _ => rfl, fun _ => rfl, fun _ => ⟨rfl, rfl⟩, fun _ => rfl, fun _ => rfl, fun _ => ⟨fun _ _ => rfl, rfl⟩,
    fun _ => rfl, fun _ _ => rfl, rfl, rfl, rfl⟩

theorem frame_idleState (u : Touched) (s : State) : Frame u s (idleState s) :=
  frame_control u s s.pc .running s.fault

theorem completes_idle (s : State) : Completes .idle s fun t => t.pc = s.pc ∧ Frame {} s t :=
  ⟨idleState s, rfl, rfl, rfl, rfl, frame_idleState {} s⟩

/-- Settles O13: the idle word is `0x0000`, and the state it leaves is again at it. -/
theorem idleWordChangesNothingAndStays : Obligations.IdleWordChangesNothingAndStays := by
  refine ⟨completes_idle, fun s hm hp hhi hlo => ?_⟩
  have hf : fetch s = .ok 0 := fetch_eq_ok.mpr ⟨hp, by simp [hhi, hlo]⟩
  have hd : decode 0 = .ok .idle := decode_encode .idle
  have hstay : (idleState s).mode ≠ .halted := nofun
  exact ⟨idleState s, engineStep_of_decode hm hf hd, rfl, engineStep_of_decode hstay hf hd,
    stepReport_of_decode hm hf hd⟩

end Sys2Proof.Machine

/-! PROOFS of the instructions with a borrow, a shifted-out bit or a random byte (42_alu.md R167 to R171), and of
the jump, the call and the return (41_control_flow.md R140, R142, R147). -/

namespace Sys2Proof.Machine

/-! ## Flags and shifts as numbers and bits -/

theorem notBorrowFlag_eq (a b : Byte) : notBorrowFlag a b = if a.toNat < b.toNat then 0 else 1 := by
  by_cases h : a.toNat < b.toNat
  · simp [notBorrowFlag, flagByte, h]
  · simp [notBorrowFlag, flagByte, h]

theorem shiftedOutLow_eq (a : Byte) : shiftedOutLow a = if a.getLsbD 0 then 1 else 0 := by
  rcases Nat.mod_two_eq_zero_or_one a.toNat with h | h <;> simp [shiftedOutLow, BitVec.getLsbD, Nat.testBit_zero, h]

theorem shiftedOutHigh_eq (a : Byte) : shiftedOutHigh a = if a.getLsbD 7 then 1 else 0 := by
  have ha := a.isLt
  have hbit : a.getLsbD 7 = decide (a.toNat / 128 % 2 = 1) := by simp [BitVec.getLsbD, Nat.testBit_eq_decide_div_mod_eq]
  rw [shiftedOutHigh, hbit]
  rcases (by omega : a.toNat / 128 = 0 ∨ a.toNat / 128 = 1) with h | h <;> simp [h]

theorem ofNat_half (a : Byte) : BitVec.ofNat 8 (a.toNat / 2) = a >>> 1 := by
  have ha := a.isLt
  exact BitVec.eq_of_toNat_eq (by simp [Nat.shiftRight_eq_div_pow]; omega)

theorem ofNat_double (a : Byte) : BitVec.ofNat 8 (a.toNat * 2) = a <<< 1 :=
  BitVec.eq_of_toNat_eq (by simp [Nat.shiftLeft_eq])

/-! ## Subtractions and shifts -/

/-- An instruction that leaves the difference `a - b` and its not-borrow (R167, R169, R172). -/
theorem completes_of_difference {i : Instr} {s : State} {x : Reg} {a b : Byte}
    (h : exec i s = .next (completeNext (setVAndFlag s x (differenceByte a b) (notBorrowFlag a b)))) :
    Completes i s fun t => getV t 0xF = (if a.toNat < b.toNat then 0 else 1) ∧
      (x ≠ 0xF → (getV t x).toNat = (a.toNat + 256 - b.toNat) % 256) ∧
      PcIs t (s.pc.toNat + 2) ∧ Frame (touchRegAndFlag x) s t := by
  refine (completes_of_setVAndFlag h).imp fun t ⟨hflag, hres, hrest⟩ => ⟨?_, fun hx => ?_, hrest⟩
  · rw [hflag, notBorrowFlag_eq]
  · rw [hres hx, toNat_differenceByte]

/-- Settles O36: both are a difference with its not-borrow, the operands exchanged. -/
theorem subtractionsSetNotBorrow : Obligations.SubtractionsSetNotBorrow :=
  fun _ _ _ => ⟨completes_of_difference rfl, completes_of_difference rfl⟩

/-- Settles O37: `8XY6` halves the number, `8XYE` shifts it left, and the flag is the bit that leaves. -/
theorem shiftsReportTheBitShiftedOut : Obligations.ShiftsReportTheBitShiftedOut := by
  refine fun x y s => ⟨?_, ?_⟩
  · refine (completes_of_setVAndFlag rfl).imp fun t ⟨hflag, hres, hrest⟩ => ⟨?_, fun hx k _ => ?_, hrest⟩
    · rw [hflag, shiftedOutLow_eq]
    · rw [hres hx, ofNat_half, BitVec.getLsbD_ushiftRight, Nat.add_comm]
  · refine (completes_of_setVAndFlag rfl).imp fun t ⟨hflag, hres, hrest⟩ => ⟨?_, fun hx => ?_, hrest⟩
    · rw [hflag, shiftedOutHigh_eq]
    · rw [hres hx, ofNat_double]
      exact ⟨by simp, fun k hk => by
        have hk8 : k + 1 < 8 := by omega
        rw [BitVec.getLsbD_shiftLeft]; simp [hk8]⟩

/-! ## The random byte (R171) -/

theorem frame_rnd (x : Reg) (nn : Byte) (s : State) : Frame { touchReg x with draws := true } s
    (completeNext (setV (drawByte s).2 x (Config.randomByte s.draws &&& nn))) :=
  ⟨fun _ hr => getV_setV_other (drawByte s).2 _ (by simpa [touchReg] using hr), fun _ => rfl, fun _ => ⟨rfl, rfl⟩,
    fun _ => rfl, fun _ => rfl, fun _ => ⟨fun _ _ => rfl, rfl⟩, nofun, fun _ _ => rfl, rfl, rfl, rfl⟩

/-- `CXNN` draws one byte, masks it and completes. -/
theorem completes_rnd (x : Reg) (nn : Byte) (s : State) :
    Completes (.rnd x nn) s fun t => getV t x = Config.randomByte s.draws &&& nn ∧ t.draws = s.draws + 1 ∧
      PcIs t (s.pc.toNat + 2) ∧ Frame { touchReg x with draws := true } s t :=
  ⟨_, rfl, rfl, rfl, getV_setV_same (drawByte s).2 x _, rfl, pcIs_completeNext _, frame_rnd x nn s⟩

/-- Settles O38: the masked byte has only bits of the mask. -/
theorem randomByteIsMasked : Obligations.RandomByteIsMasked := by
  refine fun x nn s => (completes_rnd x nn s).imp fun t ⟨hx, hdraws, hrest⟩ => ⟨hx, hdraws, fun k hk => ?_, hrest⟩
  rw [hx, BitVec.getLsbD_and, hk, Bool.and_false]

/-! ## The indexed jump -/

/-- Settles O41: the largest sum, `0xFFF + 0xFF`, is below 65536. -/
theorem indexedJumpSetsPcUnreduced : Obligations.IndexedJumpSetsPcUnreduced := by
  intro nnn s
  have hjp : exec (.jpv0 nnn) s = .next (complete s (indexedTarget s nnn)) := rfl
  refine (completes_of_transfer hjp).imp fun t ⟨hpc, hframe⟩ => ⟨?_, hframe⟩
  have hlt : nnn.toNat + (getV s 0).toNat < 65536 := by omega
  rw [hpc, indexedTarget, Nat.mod_eq_of_lt hlt]

/-! ## The call and the return -/

/-- `s` with its `PC` pushed (10_state.md R24, R25). -/
def pushed (s : State) (h : s.sp.val < 16) : State :=
  { s with stack := s.stack.set s.sp.val s.pc h, sp := ⟨s.sp.val + 1, by omega⟩ }

/-- `s` with the top entry popped: the entry keeps its contents (R24, R25). -/
def popped (s : State) : State := { s with sp := ⟨s.sp.val - 1, by omega⟩ }

/-- `2NNN` with room on the stack pushes and jumps (41_control_flow.md R142). -/
theorem exec_call_of_room {s : State} (nnn : Addr) (h : s.sp.val < 16) :
    exec (.call nnn) s = .next (complete (pushed s h) nnn.toNat) := by
  rcases pushPc_cases s with ⟨hsp, _⟩ | ⟨_, hpush⟩
  · omega
  · simp only [exec, execCall, hpush, jumpTarget, pushed]

/-- `2NNN` with a full stack faults (R142). -/
theorem exec_call_of_full {s : State} (nnn : Addr) (h : s.sp.val = 16) :
    exec (.call nnn) s = .next (raiseFault s .stackOverflow (encode (.call nnn)) 16) := by
  rcases pushPc_cases s with ⟨_, hpush⟩ | ⟨hsp, _⟩
  · simp only [exec, execCall, hpush, h]
  · omega

/-- The top entry of a stack that is not empty. -/
theorem exists_topEntry {s : State} (h : 0 < s.sp.val) : ∃ k : Fin 16, s.sp.val = k.val + 1 :=
  ⟨⟨s.sp.val - 1, by omega⟩, (Nat.succ_pred_eq_of_pos h).symm⟩

/-- `00EE` with an entry on the stack pops it and resumes after the call (R140). -/
theorem exec_ret_of_entry {s : State} {k : Fin 16} (h : s.sp.val = k.val + 1) :
    exec .ret s = .next (complete (popped s) ((s.stack[k.val]).toNat + 2)) := by
  rcases popPc_cases s with ⟨hsp, _⟩ | ⟨_, hpop⟩
  · omega
  · simp only [exec, execRet, hpop, popped, h, Nat.add_sub_cancel]

/-- `00EE` with an empty stack faults (R140). -/
theorem exec_ret_of_empty {s : State} (h : s.sp.val = 0) :
    exec .ret s = .next (raiseFault s .stackUnderflow (encode .ret) 0) := by
  rcases popPc_cases s with ⟨_, hpop⟩ | ⟨hsp, _⟩
  · simp only [exec, execRet, hpop, h]
  · omega

/-- Completing after a write of the stack and `SP` keeps everything else. -/
theorem frame_stack (s : State) (entries : Vector Word 16) (sp : Fin 17) (n : Nat) :
    Frame { stack := true } s (complete { s with stack := entries, sp := sp } n) :=
  ⟨fun _ _ => rfl, fun _ => rfl, nofun, fun _ => rfl, fun _ => rfl, fun _ => ⟨fun _ _ => rfl, rfl⟩,
    fun _ => rfl, fun _ _ => rfl, rfl, rfl, rfl⟩

theorem frame_pushed (s : State) (h : s.sp.val < 16) (n : Nat) :
    Frame { stack := true } s (complete (pushed s h) n) := frame_stack s _ _ n

theorem frame_popped (s : State) (n : Nat) : Frame { stack := true } s (complete (popped s) n) := frame_stack s _ _ n

/-- The entry at `SP` is the pushed address, the others stay. -/
theorem getElem_stack_pushed (s : State) (h : s.sp.val < 16) (k : Fin 16) :
    (pushed s h).stack[k.val] = if k.val = s.sp.val then s.pc else s.stack[k.val] := by
  simp only [pushed, Vector.getElem_set, eq_comm]

/-- Settles O42: the push and the jump, or the overflow. -/
theorem callPushesItsOwnAddress : Obligations.CallPushesItsOwnAddress := by
  refine fun nnn s => ⟨fun h => ?_, exec_call_of_full nnn⟩
  have hpc : (complete (pushed s h) nnn.toNat).pc.toNat = nnn.toNat := by
    have hlt : nnn.toNat < 2 ^ 16 := by omega
    exact (BitVec.toNat_ofNat _ 16).trans (Nat.mod_eq_of_lt hlt)
  exact ⟨_, exec_call_of_room nnn h, rfl, rfl, hpc, rfl, getElem_stack_pushed s h, frame_pushed s h _⟩

/-- The return with a return address on the stack. -/
theorem completes_ret {s : State} {k : Fin 16} (hk : s.sp.val = k.val + 1) :
    Completes .ret s fun t => PcIs t ((s.stack[k.val]).toNat + 2) ∧ t.sp.val = k.val ∧ t.stack = s.stack ∧
      Frame { stack := true } s t := by
  have hsp : (popped s).sp.val = k.val := by simp only [popped]; omega
  exact ⟨_, exec_ret_of_entry hk, rfl, rfl, BitVec.toNat_ofNat _ 16, hsp, rfl, frame_popped s _⟩

/-- Settles O43: the pop and the jump after the call, or the underflow. -/
theorem returnResumesAfterTheCall : Obligations.ReturnResumesAfterTheCall :=
  fun _ => ⟨fun _ => completes_ret, exec_ret_of_empty⟩

/-- Settles O44: the return pops the entry the call pushed. -/
theorem callThenReturnRoundTrips : Obligations.CallThenReturnRoundTrips := by
  intro nnn s h
  refine ⟨_, exec_call_of_room nnn h, fun u hstack husp => ?_⟩
  have hk : u.sp.val = s.sp.val + 1 := by rw [husp]; rfl
  have hentry : u.stack[s.sp.val] = s.pc := by
    simp only [hstack, complete_stack, getElem_stack_pushed s h ⟨s.sp.val, h⟩, if_pos]
  refine (completes_ret (k := ⟨s.sp.val, h⟩) hk).imp fun r ⟨hpc, hrsp, _, _⟩ => ⟨?_, Fin.ext hrsp⟩
  rwa [hentry] at hpc

end Sys2Proof.Machine

/-! PROOFS of the memory instructions (43_index_memory.md R193 to R195): the transfer is checked whole, then done
byte by byte from `I` up, and `I` stays. -/

namespace Sys2Proof.Machine

variable {i : Instr} {s : State}

/-! ## The range check -/

/-- An instruction of `len` bytes from `base` either faults before it touches any or completes (20_memory.md R77). -/
theorem withRange_cases (s : State) (i : Instr) (base len : Nat) (t : State) :
    (0 < len ∧ 4096 < base + len ∧
      withRange s i base len t = .next (raiseFault s .outOfRangeMemoryAccess (encode i) (max 4096 base))) ∨
    ((len = 0 ∨ base + len ≤ 4096) ∧ withRange s i base len t = .next t) := by
  by_cases h : len = 0 ∨ base + len ≤ 4096
  · exact .inr ⟨h, withRange_inside h⟩
  · have hlen : 0 < len ∧ 4096 < base + len := by omega
    exact .inl ⟨hlen.1, hlen.2, withRange_outside hlen.1 hlen.2⟩

/-- Writing to `I` the address it holds changes nothing (R194, R195: `I` stays). -/
theorem setI_toNat {u : State} {n : Nat} (h : n = u.i.toNat) : setI u n = u := by
  rw [h, setI, BitVec.ofNat_toNat, BitVec.setWidth_eq]

/-- `s` after the bytes `bs` are stored from `I` up. -/
def stored (s : State) (bs : List Byte) : State := completeNext (setMem s (Memory.writeBytes s.mem (memBase s) bs))

/-- `s` after `V[0]..V[X]` are loaded from `I` up. -/
def loaded (s : State) (x : Reg) : State :=
  completeNext (loadRegs s 0 (Memory.readBytes s.mem (memBase s) (regCount x)))

theorem exec_bcd (x : Reg) (s : State) :
    exec (.bcd x) s = withRange s (.bcd x) s.i.toNat 3 (stored s (bcdDigits (getV s x))) := rfl

theorem exec_stm (x : Reg) (s : State) :
    exec (.stm x) s = withRange s (.stm x) s.i.toNat (x.toNat + 1) (stored s (regRange s x)) := by
  show withRange s (.stm x) (memBase s) (regCount x) (completeNext (setI _ _)) = _
  rw [setI_toNat (by rw [indexAfterMemop_eq, setMem_i])]
  rfl

theorem exec_ldm (x : Reg) (s : State) :
    exec (.ldm x) s = withRange s (.ldm x) s.i.toNat (x.toNat + 1) (loaded s x) := by
  show withRange s (.ldm x) (memBase s) (regCount x) (completeNext (setI _ _)) = _
  rw [setI_toNat (by rw [indexAfterMemop_eq, loadRegs_i])]
  rfl

/-! ## Stores -/

theorem frame_stored (s : State) (bs : List Byte) : Frame (touchBytes (memBase s) bs.length) s (stored s bs) := by
  refine ⟨fun _ _ => rfl, fun _ => rfl, fun _ => ⟨rfl, rfl⟩, fun _ => rfl, fun _ => rfl, fun _ => ⟨fun _ _ => rfl, rfl⟩,
    fun _ => rfl, fun a ha => ?_, rfl, rfl, rfl⟩
  exact Memory.read_writeBytes_other _ _ (of_decide_eq_false ha)

/-- A store of the bytes `bs`, in a canonical memory: each reads back at its address, and `I` and every other byte stay. -/
theorem completes_of_stored {bs : List Byte} (hm : Memory.wf s.mem) (h : exec i s = .next (stored s bs)) :
    Completes i s fun t => (∀ k (hk : k < bs.length), Memory.read t.mem (s.i.toNat + k) = bs[k]) ∧ t.i = s.i ∧
      Memory.wf t.mem ∧ PcIs t (s.pc.toNat + 2) ∧ Frame (touchBytes (memBase s) bs.length) s t :=
  ⟨_, h, rfl, rfl, fun _ hk => Memory.read_writeBytes_inside hm _ bs hk, rfl, Memory.writeBytes_wf hm _ bs,
    pcIs_completeNext _, frame_stored s bs⟩

/-- Settles O46: the three bytes stored are the digits, none above its decimal bound. -/
theorem bcdWritesTheThreeDigits : Obligations.BcdWritesTheThreeDigits := by
  refine fun x s => ⟨fun hm hi => ?_, fun hi => ?_⟩
  · have hv := (getV s x).isLt
    have hbcd : exec (.bcd x) s = .next (stored s (bcdDigits (getV s x))) :=
      (exec_bcd x s).trans (withRange_inside (by omega))
    refine (completes_of_stored hm hbcd).imp fun t ⟨hread, _, hwf, hpc, hframe⟩ =>
      ⟨(getV s x).toNat / 100, (getV s x).toNat / 10 % 10, (getV s x).toNat % 10, by omega, by omega, by omega, by omega,
        ?_, ?_, ?_, hwf, hpc, hframe⟩
    · rw [← Nat.add_zero s.i.toNat, hread 0 (by simp)]
      simp [bcdDigits]; omega
    · rw [hread 1 (by simp)]
      simp [bcdDigits]; omega
    · rw [hread 2 (by simp)]
      simp [bcdDigits]; omega
  · exact (exec_bcd x s).trans (withRange_outside (by omega) (by omega))

theorem exec_stm_inside {x : Reg} (h : s.i.toNat + x.toNat ≤ 4095) : exec (.stm x) s = .next (stored s (regRange s x)) :=
  (exec_stm x s).trans (withRange_inside (by omega))

/-- `FX55` in range, in a canonical memory (R194). -/
theorem completes_stm {x : Reg} (hm : Memory.wf s.mem) (h : s.i.toNat + x.toNat ≤ 4095) :
    Completes (.stm x) s fun t =>
      (∀ r : Reg, r.toNat ≤ x.toNat → Memory.read t.mem (s.i.toNat + r.toNat) = getV s r) ∧ t.i = s.i ∧
      Memory.wf t.mem ∧ PcIs t (s.pc.toNat + 2) ∧ Frame (touchBytes (memBase s) (regCount x)) s t := by
  refine (completes_of_stored hm (exec_stm_inside h)).imp fun t ⟨hread, hi, hwf, hpc, hframe⟩ =>
    ⟨fun r hr => ?_, hi, hwf, hpc, by rwa [length_regRange] at hframe⟩
  rw [hread r.toNat (by rw [length_regRange]; omega), getElem_regRange, BitVec.ofNat_toNat, BitVec.setWidth_eq]

/-- Settles O47: the bytes stored are the registers in order, or the range check faults. -/
theorem storeRegistersResult : Obligations.StoreRegistersResult := fun x s =>
  ⟨fun hm h => completes_stm hm h, fun h => (exec_stm x s).trans (withRange_outside (by omega) (by omega))⟩

/-! ## Loads -/

/-- The registers after `FX65`: `V[0]..V[X]` the bytes from `I` up, the others as before (R195). -/
theorem getV_loaded (s : State) (x r : Reg) :
    getV (loaded s x) r = if r.toNat ≤ x.toNat then Memory.read s.mem (s.i.toNat + r.toNat) else getV s r := by
  have hx := x.isLt
  rw [loaded, getV_completeNext, getV_loadRegs s 0 _ (by simp [regCount]; omega), Memory.length_readBytes]
  by_cases hr : r.toNat ≤ x.toNat
  · have hlt : r.toNat < regCount x := Nat.lt_succ_of_le hr
    rw [if_pos ⟨Nat.zero_le _, by omega⟩, if_pos hr, Nat.sub_zero, Memory.getD_readBytes _ _ hlt]
    rfl
  · rw [if_neg (by simp only [regCount]; omega), if_neg hr]

/-- Loading registers and completing touches nothing but the registers loaded. -/
theorem frame_loaded (s : State) (x : Reg) : Frame { regs := fun r => decide (r.toNat ≤ x.toNat) } s (loaded s x) := by
  have hget : ∀ r : Reg, decide (r.toNat ≤ x.toNat) = false → getV (loaded s x) r = getV s r := fun r hr => by
    rw [getV_loaded, if_neg (of_decide_eq_false hr)]
  have hkeeps := loadRegs_keeps s (Memory.readBytes s.mem (memBase s) (regCount x)) 0
  rw [loaded, completeNext, hkeeps] at hget ⊢
  exact frame_complete_registers _ hget

theorem exec_ldm_inside {x : Reg} (h : s.i.toNat + x.toNat ≤ 4095) : exec (.ldm x) s = .next (loaded s x) :=
  (exec_ldm x s).trans (withRange_inside (by omega))

/-- `FX65` in range (R195). -/
theorem completes_ldm {x : Reg} (h : s.i.toNat + x.toNat ≤ 4095) :
    Completes (.ldm x) s fun t =>
      (∀ r : Reg, r.toNat ≤ x.toNat → getV t r = Memory.read s.mem (s.i.toNat + r.toNat)) ∧ t.i = s.i ∧
      PcIs t (s.pc.toNat + 2) ∧ Frame { regs := fun r => decide (r.toNat ≤ x.toNat) } s t := by
  have hpc : PcIs (loaded s x) (s.pc.toNat + 2) := by
    have hnext := pcIs_completeNext (loadRegs s 0 (Memory.readBytes s.mem (memBase s) (regCount x)))
    rwa [loadRegs_pc] at hnext
  exact ⟨_, exec_ldm_inside h, rfl, loadRegs_fault s 0 _, fun r hr => by rw [getV_loaded, if_pos hr],
    loadRegs_i s 0 _, hpc, frame_loaded s x⟩

/-- Settles O48: the bytes loaded in order, or the range check faults. -/
theorem loadRegistersResult : Obligations.LoadRegistersResult := fun x s =>
  ⟨fun h => completes_ldm h, fun h => (exec_ldm x s).trans (withRange_outside (by omega) (by omega))⟩

/-- Settles O49: a load and a fetch read memory, where the store left the registers. -/
theorem storedRegistersAreLoadedAndFetched : Obligations.StoredRegistersAreLoadedAndFetched := by
  intro x s hm h
  obtain ⟨t, hexec, _, _, hstore, _⟩ := completes_stm hm h
  refine ⟨t, hexec, fun u hmem hi => ?_, fun u q p hmem hp hpx hpc => ?_⟩
  · obtain ⟨r, hldm, _, _, hload, _⟩ := completes_ldm (s := u) (x := x) (by rwa [hi])
    exact ⟨r, hldm, fun q hq => by rw [hload q hq, hmem, hi, hstore q hq]⟩
  · have hq : Memory.read u.mem u.pc.toNat = getV s q := by rw [hmem, hpc, hstore q (by omega)]
    have hp' : Memory.read u.mem (u.pc.toNat + 1) = getV s p := by rw [hmem, hpc, Nat.add_assoc, ← hp, hstore p hpx]
    refine ⟨_, fetch_eq_ok.mpr ⟨by omega, toNat_readWord _ _⟩, ?_⟩
    rw [toNat_readWord, hq, hp']

end Sys2Proof.Machine

/-! PROOFS of the keypad instructions (45_keypad_timers.md R230 to R232). -/

namespace Sys2Proof.Machine

variable {s : State}

/-! ## The key skips -/

theorem keyOperand_of_eq {x k : Reg} (h : (getV s x).toNat = k.toNat) : keyOperand s x = some k := by
  rcases keyOperand_cases s x with ⟨hgt, _⟩ | ⟨_, hsome⟩
  · omega
  · rw [hsome, h, BitVec.ofNat_toNat, BitVec.setWidth_eq]

theorem keyOperand_of_gt {x : Reg} (h : 15 < (getV s x).toNat) : keyOperand s x = none := by
  rcases keyOperand_cases s x with ⟨_, hnone⟩ | ⟨hle, _⟩
  · exact hnone
  · omega

theorem exec_skp_of_key {x k : Reg} (h : keyOperand s x = some k) :
    exec (.skp x) s = .next (complete s (skipTarget s (keyDown s k))) := by
  simp only [exec, execSkp, h]

theorem exec_sknp_of_key {x k : Reg} (h : keyOperand s x = some k) :
    exec (.sknp x) s = .next (complete s (skipTarget s (!keyDown s k))) := by
  simp only [exec, execSknp, h]

theorem exec_skp_of_no_key {x : Reg} (h : keyOperand s x = none) :
    exec (.skp x) s = .next (raiseFault s .keyIndexOutOfRange (encode (.skp x)) (getV s x).toNat) := by
  simp only [exec, execSkp, h]

theorem exec_sknp_of_no_key {x : Reg} (h : keyOperand s x = none) :
    exec (.sknp x) s = .next (raiseFault s .keyIndexOutOfRange (encode (.sknp x)) (getV s x).toNat) := by
  simp only [exec, execSknp, h]

theorem skipTarget_not (s : State) (b : Bool) :
    skipTarget s (!b) = if b = true then s.pc.toNat + 2 else s.pc.toNat + 4 := by
  cases b <;> rfl

/-- Settles O54: both skip on the level of the key that `V[X]` names, when it names one. -/
theorem keySkipsTestTheKeyLevel : Obligations.KeySkipsTestTheKeyLevel := by
  refine fun x k s => ⟨fun h => ⟨?_, ?_⟩, fun h => ?_⟩
  · exact completes_of_transfer (exec_skp_of_key (keyOperand_of_eq h))
  · rw [← skipTarget_not]
    exact completes_of_transfer (exec_sknp_of_key (keyOperand_of_eq h))
  · exact ⟨exec_skp_of_no_key (keyOperand_of_gt h), exec_sknp_of_no_key (keyOperand_of_gt h)⟩

/-! ## Waiting for a key (R232) -/

theorem exec_wkey_of_key {x k : Reg} (h : pressedKey s = some k) :
    exec (.wkey x) s = .next (completeNext (setV s x (BitVec.ofNat 8 k.toNat))) := by
  simp only [exec, execWkey, h]

theorem exec_wkey_of_no_key {x : Reg} (h : pressedKey s = none) : exec (.wkey x) s = .next (waitForKey s) := by
  simp only [exec, execWkey, h]

/-- The least key down is the one `FX0A` reports. -/
theorem pressedKey_of_least {k : Reg} (hk : keyDown s k = true)
    (hleast : ∀ j : Reg, j.toNat < k.toNat → keyDown s j = false) : pressedKey s = some k := by
  cases h : pressedKey s with
  | none => simp [pressedKey_eq_none.mp h k] at hk
  | some j =>
    obtain ⟨hj, hjleast⟩ := pressedKey_eq_some h
    have hjk : ¬j.toNat < k.toNat := fun hlt => by simp [hleast j hlt] at hj
    have hkj : ¬k.toNat < j.toNat := fun hlt => by simp [hjleast k hlt] at hk
    rw [BitVec.eq_of_toNat_eq (by omega : j.toNat = k.toNat)]

/-- Settles O55: with no key down the wait is a state that waits again; with one down the least index is stored. -/
theorem waitForKeyStoresTheLowestKeyDown : Obligations.WaitForKeyStoresTheLowestKeyDown := by
  refine fun x s => ⟨fun hno => exec_wkey_of_no_key (pressedKey_eq_none.mpr hno), fun k hk hleast => ?_,
    fun hno hm ⟨w, hf, hd⟩ => ?_⟩
  · refine (completes_of_setV (exec_wkey_of_key (pressedKey_of_least hk hleast))).imp fun t ⟨hx, hrest⟩ => ⟨?_, hrest⟩
    rw [hx, BitVec.toNat_ofNat, Nat.mod_eq_of_lt (by omega)]
  · have hnone : pressedKey s = none := pressedKey_eq_none.mpr hno
    have hlive : (waitForKey s).mode ≠ .halted := nofun
    exact ⟨waitForKey s, (engineStep_of_decode hm hf hd).trans (exec_wkey_of_no_key hnone), rfl, rfl,
      (engineStep_of_decode hlive hf hd).trans (exec_wkey_of_no_key (s := waitForKey s) hnone)⟩

end Sys2Proof.Machine

/-! PROOFS of the sprite draw (44_display.md R211 to R213): no two set bits of a sprite address one cell, so a draw
flips the cells it covers once each. -/

namespace Sys2Proof.Machine

/-! ## No self-overlap (R213) -/

/-- The eight columns of a row stay apart modulo 64. -/
theorem nodup_rowCells (x0 y0 row : Nat) (b : Byte) : (rowCells x0 y0 row b).Nodup := by
  refine (List.nodup_range.filter _).map_on fun j hj k hk h => ?_
  have hcol : (x0 + j) % 64 = (x0 + k) % 64 := congrArg (fun c => c.1.val) h
  have hj8 : j < 8 := List.mem_range.mp (List.mem_filter.mp hj).1
  have hk8 : k < 8 := List.mem_range.mp (List.mem_filter.mp hk).1
  omega

/-- At most 32 rows stay apart modulo 32. -/
theorem nodup_spriteCells (x0 y0 row : Nat) {bs : List Byte} (h : bs.length ≤ 32) :
    (spriteCells x0 y0 row bs).Nodup := by
  induction bs generalizing row with
  | nil => exact List.nodup_nil
  | cons b bs ih =>
    rw [List.length_cons] at h
    refine List.nodup_append.mpr ⟨nodup_rowCells x0 y0 row b, ih (row + 1) (by omega), fun c hc d hd hcd => ?_⟩
    obtain ⟨_, _, _, _, hrow⟩ := mem_rowCells.mp hc
    obtain ⟨j, _, hj, _, _, _, hrow'⟩ := mem_spriteCells.mp hd
    rw [← hcd] at hrow'
    omega

/-- Settles O52: the rows stay apart modulo 32 and the columns of a row modulo 64. -/
theorem spriteNeverOverlapsItself : Obligations.SpriteNeverOverlapsItself :=
  fun _ _ _ _ h => nodup_spriteCells _ _ _ (by omega)

theorem nodup_drawnCells (s : State) (x y : Reg) (n : Nibble) : (drawnCells s x y n).Nodup :=
  nodup_spriteCells _ _ _ (by rw [Memory.length_readBytes]; omega)

/-! ## The draw -/

/-- `s` after the sprite is drawn. -/
def drawn (s : State) (x y : Reg) (n : Nibble) : State :=
  completeNext (setV (setScreen s (blit s.fb false (drawnCells s x y n)).1) regVF
    (collisionFlag (blit s.fb false (drawnCells s x y n)).2))

theorem exec_drw (x y : Reg) (n : Nibble) (s : State) :
    exec (.drw x y n) s = withRange s (.drw x y n) s.i.toNat n.toNat (drawn s x y n) := rfl

theorem exec_drw_inside {x y : Reg} {n : Nibble} {s : State} (h : n = 0 ∨ s.i.toNat + n.toNat ≤ 4096) :
    exec (.drw x y n) s = .next (drawn s x y n) :=
  (exec_drw x y n s).trans (withRange_inside (h.imp_left fun hn => congrArg BitVec.toNat hn))

/-- The draw flips exactly the covered cells. -/
theorem pixel_drawn (s : State) (x y : Reg) (n : Nibble) (cx : Fin 64) (cy : Fin 32) :
    pixel (drawn s x y n).fb cx cy = true ↔ ¬(pixel s.fb cx cy = true ↔ spriteCovers s x y n cx cy) := by
  have hblit : pixel (drawn s x y n).fb cx cy = (pixel s.fb cx cy ^^ decide ((cx, cy) ∈ drawnCells s x y n)) :=
    pixel_blit_nodup s.fb false (nodup_drawnCells s x y n) cx cy
  have hcover : (cx, cy) ∈ drawnCells s x y n ↔ spriteCovers s x y n cx cy := mem_drawnCells
  rw [hblit, ← hcover]
  cases pixel s.fb cx cy <;> simp

theorem getV_drawn_VF (s : State) (x y : Reg) (n : Nibble) :
    getV (drawn s x y n) 0xF = collisionFlag (blit s.fb false (drawnCells s x y n)).2 :=
  getV_setV_same _ regVF _

theorem getV_drawn_other {r : Reg} (hr : r ≠ 0xF) (s : State) (x y : Reg) (n : Nibble) :
    getV (drawn s x y n) r = getV s r :=
  getV_setV_other _ _ hr

theorem flagByte_zero_or_one (b : Bool) : flagByte b = 0 ∨ flagByte b = 1 := by cases b <;> decide

theorem flagByte_eq_one {b : Bool} : flagByte b = 1 ↔ b = true := by cases b <;> decide

/-- The flag after a draw is whether a covered cell was lit before it. -/
theorem getV_drawn_VF_eq_one (s : State) (x y : Reg) (n : Nibble) :
    getV (drawn s x y n) 0xF = 1 ↔ ∃ cx cy, spriteCovers s x y n cx cy ∧ pixel s.fb cx cy = true := by
  rw [getV_drawn_VF, collisionFlag, flagByte_eq_one, blit_hit_nodup s.fb false (nodup_drawnCells s x y n)]
  simp only [Bool.false_or, List.any_eq_true, Prod.exists, mem_drawnCells]

theorem frame_drawn (s : State) (x y : Reg) (n : Nibble) :
    Frame { regs := fun r => r == 0xF, screen := true } s (drawn s x y n) :=
  ⟨fun _ hr => getV_drawn_other (by simpa using hr) s x y n, fun _ => rfl, fun _ => ⟨rfl, rfl⟩, fun _ => rfl,
    fun _ => rfl, nofun, fun _ => rfl, fun _ _ => rfl, rfl, rfl, rfl⟩

/-- Settles O51: the draw flips each covered cell once, and the flag is whether one was lit. -/
theorem drawXorsTheSpriteAndReportsCollision : Obligations.DrawXorsTheSpriteAndReportsCollision := by
  refine fun x y n s => ⟨fun h => ?_, fun hn hout => (exec_drw x y n s).trans (withRange_outside hn hout)⟩
  have hflag : getV (drawn s x y n) 0xF = 0 ∨ getV (drawn s x y n) 0xF = 1 := by
    rw [getV_drawn_VF]; exact flagByte_zero_or_one _
  exact ⟨_, exec_drw_inside h, rfl, rfl, pixel_drawn s x y n, hflag, getV_drawn_VF_eq_one s x y n, rfl,
    pcIs_completeNext _, frame_drawn s x y n⟩

/-- A draw leaves the sprite and its place as they were, unless it writes `V[x]` or `V[y]` as `VF`. -/
theorem spriteCovers_drawn {x y : Reg} (hx : x ≠ 0xF) (hy : y ≠ 0xF) (s : State) (n : Nibble) (cx : Fin 64)
    (cy : Fin 32) : spriteCovers (drawn s x y n) x y n cx cy ↔ spriteCovers s x y n cx cy := by
  simp only [spriteCovers, getV_drawn_other hx, getV_drawn_other hy]
  rfl

/-- Settles O53: the second draw covers the cells of the first, so each is flipped back, and it finds lit those that the
first one lit. -/
theorem drawingTwiceRestoresTheScreen : Obligations.DrawingTwiceRestoresTheScreen := by
  intro x y n s hx hy h
  refine ⟨_, _, exec_drw_inside h, exec_drw_inside (s := drawn s x y n) h, fun cx cy => ?_, ?_⟩
  · rw [Bool.eq_iff_iff, pixel_drawn, pixel_drawn, spriteCovers_drawn hx hy]
    tauto
  · rw [getV_drawn_VF_eq_one]
    refine exists_congr fun cx => exists_congr fun cy => ?_
    rw [spriteCovers_drawn hx hy]
    refine and_congr_right fun hcover => ?_
    rw [pixel_drawn, ← Bool.not_eq_true]
    tauto

end Sys2Proof.Machine

/-! PROOFS about every instruction: said once, what each of them can do (40_step_cycle.md R124, R125;
60_exceptions.md R250, R253), so that the rules of the whole machine follow without running an instruction again. -/

namespace Sys2Proof.Machine

variable {i : Instr} {s t : State}

/-! ## The parts of a frame -/

section
variable {u : Touched} (h : Frame u s t)
include h

theorem Frame.getV_eq {r : Reg} (hr : u.regs r = false) : getV t r = getV s r := by
  obtain ⟨hregs, _⟩ := h
  exact hregs r hr

theorem Frame.dt_eq (hu : u.dt = false) : t.dt = s.dt := by
  obtain ⟨_, _, _, hdt, _⟩ := h
  exact hdt hu

theorem Frame.screen_eq (hu : u.screen = false) :
    t.dirty = s.dirty ∧ ∀ cx cy, pixel t.fb cx cy = pixel s.fb cx cy := by
  obtain ⟨_, _, _, _, _, hscreen, _⟩ := h
  exact (hscreen hu).symm

theorem Frame.events_eq : t.agenda = s.agenda ∧ t.turns = s.turns := by
  obtain ⟨_, _, _, _, _, _, _, _, _, hagenda, hturns⟩ := h
  exact ⟨hagenda, hturns⟩

end

theorem frame_Faulted (u : Touched) (s : State) (kind : FaultKind) (w : Word) (info : Nat) :
    Frame u s (Faulted s kind w info) :=
  frame_control u s s.pc .halted _

theorem frame_waitForKey (u : Touched) (s : State) : Frame u s (waitForKey s) :=
  frame_control u s s.pc .waitingForKey s.fault

/-! ## What an instruction that completes can have done -/

/-- From `s` to `t` the instruction `i` did no more than this. -/
structure Effect (i : Instr) (s t : State) : Prop where
  /-- Nothing outside its write set changed. -/
  frame : Frame (mayTouch s i) s t
  /-- Memory is as it was, or in-range bytes were stored from `I` up. -/
  mem : t.mem = s.mem ∨
    ∃ bs : List Byte, t.mem = Memory.writeBytes s.mem s.i.toNat bs ∧ s.i.toNat + bs.length ≤ 4096
  /-- No entry was stored on the stack, or the instruction's own address was pushed. -/
  stack : (t.stack = s.stack ∧ t.sp.val ≤ s.sp.val) ∨
    ∃ h : s.sp.val < 16, t.stack = s.stack.set s.sp.val s.pc h ∧ t.sp.val = s.sp.val + 1
  /-- `PC` went at most four bytes on, or to a jump target, or two bytes past a return address. -/
  pc : t.pc.toNat ≤ s.pc.toNat + 4 ∨ t.pc.toNat ≤ 0x10FE ∨
    ∃ k : Fin 16, k.val < s.sp.val ∧ t.pc.toNat ≤ (s.stack[k.val]).toNat + 2

theorem toNat_pc_complete_le (u : State) (n : Nat) : (complete u n).pc.toNat ≤ n :=
  (BitVec.toNat_ofNat n 16).trans_le (Nat.mod_le _ _)

/-- An instruction that transfers control to a skip or jump target. -/
theorem effect_of_transfer {n : Nat} (hexec : exec i s = .next (complete s n))
    (hn : n ≤ s.pc.toNat + 4 ∨ n ≤ 0x10FE) : Completes i s (Effect i s) := by
  have hpc := toNat_pc_complete_le s n
  exact ⟨_, hexec, rfl, rfl, frame_complete _ s n, .inl rfl, .inl ⟨rfl, le_rfl⟩,
    hn.imp hpc.trans fun h => .inl (hpc.trans h)⟩

/-- An instruction that completes with `PC + 2` from a state `u` that differs from `s` in neither memory, stack nor `PC`. -/
theorem effect_of_next {u : State} (hexec : exec i s = .next (completeNext u))
    (hframe : Frame (mayTouch s i) s (completeNext u)) (hfault : u.fault = s.fault) (hmem : u.mem = s.mem)
    (hstack : u.stack = s.stack) (hsp : u.sp = s.sp) (hpc : u.pc = s.pc) : Completes i s (Effect i s) := by
  have hle : (completeNext u).pc.toNat ≤ s.pc.toNat + 2 := hpc ▸ toNat_pc_complete_le u _
  exact ⟨_, hexec, rfl, hfault, hframe, .inl hmem, .inl ⟨hstack, (congrArg Fin.val hsp).le⟩, .inl (by omega)⟩

/-- An instruction that stores in-range bytes from `I` up. -/
theorem effect_of_store {bs : List Byte} (hexec : exec i s = .next (stored s bs))
    (hframe : Frame (mayTouch s i) s (stored s bs)) (h : s.i.toNat + bs.length ≤ 4096) : Completes i s (Effect i s) := by
  have hle : (stored s bs).pc.toNat ≤ s.pc.toNat + 2 := toNat_pc_complete_le _ _
  exact ⟨_, hexec, rfl, rfl, hframe, .inr ⟨bs, rfl, h⟩, .inl ⟨rfl, le_rfl⟩, .inl (by omega)⟩

theorem skipTarget_le (s : State) (b : Bool) : skipTarget s b ≤ s.pc.toNat + 4 := by
  unfold skipTarget
  split <;> omega

/-! ## What every instruction can do -/

/-- The three ways the instruction `i` can end in `s`. -/
inductive ExecCase (i : Instr) (s : State) : State → Prop where
  /-- It takes the fault of the table (R250), never the reserved one (R251). -/
  | faults (kind : FaultKind) (info : Nat) (cause : causeOf s i = some (kind, info))
      (notReserved : kind ≠ .invalidRegisterIndex) : ExecCase i s (Faulted s kind (encode i) info)
  /-- It completes within its effect. -/
  | completes {t : State} (cause : causeOf s i = none) (running : t.mode = .running) (fault : t.fault = s.fault)
      (effect : Effect i s t) : ExecCase i s t
  /-- `FX0A` finds no key. -/
  | waits (x : Reg) (isWkey : i = .wkey x) : ExecCase i s (waitForKey s)

/-- The instruction `i` answers a next state in `s`, in one of the three ways. -/
def Ends (i : Instr) (s : State) : Prop := ∃ t, exec i s = .next t ∧ ExecCase i s t

theorem ends_of_fault {kind : FaultKind} {info : Nat} (hexec : exec i s = .next (raiseFault s kind (encode i) info))
    (hcause : causeOf s i = some (kind, info)) (hkind : kind ≠ .invalidRegisterIndex) : Ends i s :=
  ⟨_, hexec, .faults kind info hcause hkind⟩

theorem ends_of_completes (hcause : causeOf s i = none) (h : Completes i s (Effect i s)) : Ends i s := by
  obtain ⟨t, hexec, hrun, hfault, heffect⟩ := h
  exact ⟨t, hexec, .completes hcause hrun hfault heffect⟩

/-- An instruction that checks a byte range ends by the table as soon as the table has the same range. -/
theorem ends_of_withRange {base len : Nat} {t : State} (hexec : exec i s = withRange s i base len t)
    (hcause : causeOf s i = if 0 < len ∧ 4096 < base + len then some (.outOfRangeMemoryAccess, max 4096 base) else none)
    (hin : exec i s = .next t → len = 0 ∨ base + len ≤ 4096 → Completes i s (Effect i s)) : Ends i s := by
  rcases withRange_cases s i base len t with ⟨hlen, hout, hfault⟩ | ⟨hok, hnext⟩
  · exact ends_of_fault (hexec.trans hfault) (hcause.trans (if_pos ⟨hlen, hout⟩)) (by decide)
  · exact ends_of_completes (hcause.trans (if_neg (by omega))) (hin (hexec.trans hnext) hok)

theorem ends_ret (s : State) : Ends .ret s := by
  rcases Nat.eq_zero_or_pos s.sp.val with hsp | hsp
  · exact ends_of_fault (exec_ret_of_empty hsp) (if_pos hsp) (by decide)
  · obtain ⟨k, hk⟩ := exists_topEntry hsp
    have hpc : (complete (popped s) ((s.stack[k.val]).toNat + 2)).pc.toNat ≤ (s.stack[k.val]).toNat + 2 :=
      toNat_pc_complete_le _ _
    have hle : (popped s).sp.val ≤ s.sp.val := Nat.sub_le _ _
    exact ends_of_completes (if_neg (by omega)) ⟨_, exec_ret_of_entry hk, rfl, rfl, frame_popped s _, .inl rfl,
      .inl ⟨rfl, hle⟩, .inr (.inr ⟨k, by omega, hpc⟩)⟩

theorem ends_call (nnn : Addr) (s : State) : Ends (.call nnn) s := by
  rcases (by omega : s.sp.val = 16 ∨ s.sp.val < 16) with hsp | hsp
  · exact ends_of_fault (exec_call_of_full nnn hsp) (if_pos hsp) (by decide)
  · have hpc : (complete (pushed s hsp) nnn.toNat).pc.toNat ≤ nnn.toNat := toNat_pc_complete_le _ _
    exact ends_of_completes (if_neg (by omega)) ⟨_, exec_call_of_room nnn hsp, rfl, rfl, frame_pushed s hsp _,
      .inl rfl, .inr ⟨hsp, rfl, rfl⟩, .inr (.inl (by omega))⟩

theorem ends_skp (x : Reg) (s : State) : Ends (.skp x) s := by
  rcases keyOperand_cases s x with ⟨hv, hkey⟩ | ⟨hv, hkey⟩
  · exact ends_of_fault (exec_skp_of_no_key hkey) (if_pos hv) (by decide)
  · exact ends_of_completes (if_neg (by omega)) (effect_of_transfer (exec_skp_of_key hkey) (.inl (skipTarget_le s _)))

theorem ends_sknp (x : Reg) (s : State) : Ends (.sknp x) s := by
  rcases keyOperand_cases s x with ⟨hv, hkey⟩ | ⟨hv, hkey⟩
  · exact ends_of_fault (exec_sknp_of_no_key hkey) (if_pos hv) (by decide)
  · exact ends_of_completes (if_neg (by omega)) (effect_of_transfer (exec_sknp_of_key hkey) (.inl (skipTarget_le s _)))

theorem ends_wkey (x : Reg) (s : State) : Ends (.wkey x) s := by
  cases h : pressedKey s with
  | none => exact ⟨_, exec_wkey_of_no_key h, .waits x rfl⟩
  | some k =>
    exact ends_of_completes rfl (effect_of_next (exec_wkey_of_key h) (frame_setV s x _) rfl rfl rfl rfl rfl)

theorem ends_drw (x y : Reg) (n : Nibble) (s : State) : Ends (.drw x y n) s := by
  refine ends_of_withRange (exec_drw x y n s) (if_congr ?_ rfl rfl) fun hexec _ =>
    effect_of_next hexec (frame_drawn s x y n) rfl rfl rfl rfl rfl
  omega

theorem ends_bcd (x : Reg) (s : State) : Ends (.bcd x) s := by
  refine ends_of_withRange (exec_bcd x s) (if_congr ?_ rfl rfl) fun hexec hok =>
    effect_of_store hexec (frame_stored s _) (by rw [length_bcdDigits]; omega)
  omega

theorem ends_stm (x : Reg) (s : State) : Ends (.stm x) s := by
  have hframe := frame_stored s (regRange s x)
  rw [length_regRange] at hframe
  refine ends_of_withRange (exec_stm x s) (if_congr ?_ rfl rfl) fun hexec hok =>
    effect_of_store hexec hframe (by rw [length_regRange]; omega)
  omega

theorem ends_ldm (x : Reg) (s : State) : Ends (.ldm x) s := by
  refine ends_of_withRange (exec_ldm x s) (if_congr ?_ rfl rfl) fun hexec _ =>
    effect_of_next hexec (frame_loaded s x) (loadRegs_fault ..) (loadRegs_mem ..) (loadRegs_stack ..) (loadRegs_sp ..)
      (loadRegs_pc ..)
  omega

/-- Every instruction in every state ends in one of the three ways. -/
theorem exec_ends (i : Instr) (s : State) : Ends i s := by
  cases i with
  | ret => exact ends_ret s
  | call nnn => exact ends_call nnn s
  | skp x => exact ends_skp x s
  | sknp x => exact ends_sknp x s
  | wkey x => exact ends_wkey x s
  | drw x y n => exact ends_drw x y n s
  | bcd x => exact ends_bcd x s
  | stm x => exact ends_stm x s
  | ldm x => exact ends_ldm x s
  | idle =>
    exact ends_of_completes rfl ⟨idleState s, rfl, rfl, rfl, frame_idleState _ s, .inl rfl, .inl ⟨rfl, le_rfl⟩,
      .inl (Nat.le_add_right _ _)⟩
  | cls => exact ends_of_completes rfl (effect_of_next rfl (frame_setScreen s _) rfl rfl rfl rfl rfl)
  | sei | snei | ser | sner => exact ends_of_completes rfl (effect_of_transfer rfl (.inl (skipTarget_le s _)))
  | jp nnn =>
    have hn : jumpTarget nnn ≤ 0x10FE := by unfold jumpTarget; omega
    exact ends_of_completes rfl (effect_of_transfer rfl (.inr hn))
  | jpv0 nnn =>
    have hn : indexedTarget s nnn ≤ 0x10FE := by unfold indexedTarget; omega
    exact ends_of_completes rfl (effect_of_transfer rfl (.inr hn))
  | ldi | addi | mov | or | and | xor | lddt =>
    exact ends_of_completes rfl (effect_of_next rfl (frame_setV s _ _) rfl rfl rfl rfl rfl)
  | add | sub | shr | subn | shl =>
    exact ends_of_completes rfl (effect_of_next rfl (frame_setVAndFlag s _ _ _) rfl rfl rfl rfl rfl)
  | rnd x nn => exact ends_of_completes rfl (effect_of_next rfl (frame_rnd x nn s) rfl rfl rfl rfl rfl)
  | ldix | addix | font => exact ends_of_completes rfl (effect_of_next rfl (frame_setI s _) rfl rfl rfl rfl rfl)
  | stdt => exact ends_of_completes rfl (effect_of_next rfl (frame_setDt s _) rfl rfl rfl rfl rfl)
  | stst => exact ends_of_completes rfl (effect_of_next rfl (frame_setSt s _) rfl rfl rfl rfl rfl)

theorem next_unique {r : Result} {t u : State} (ht : r = .next t) (hu : r = .next u) : t = u :=
  Host.Outcome.next.inj (ht.symm.trans hu)

/-- What an instruction can have done, once it has answered. -/
theorem exec_inv (h : exec i s = .next t) : ExecCase i s t := by
  obtain ⟨u, hexec, hcase⟩ := exec_ends i s
  exact next_unique hexec h ▸ hcase

end Sys2Proof.Machine

/-! PROOFS of the rules over every instruction and every `Step`: faults, frames, reports (00_scope.md R10;
10_state.md R21, R38; 60_exceptions.md R250 to R253). -/

namespace Sys2Proof.Machine

variable {i : Instr} {s t : State}

/-! ## Every instruction -/

theorem exec_next (i : Instr) (s : State) : ∃ t, exec i s = .next t :=
  (exec_ends i s).imp fun _ h => h.1

/-- No instruction changes anything outside its write set. -/
theorem exec_frame (h : exec i s = .next t) : Frame (mayTouch s i) s t := by
  cases exec_inv h with
  | faults kind info => exact frame_Faulted _ s kind _ info
  | completes _ _ _ heffect => exact heffect.frame
  | waits => exact frame_waitForKey _ s

/-- Where the table names a fault, the instruction takes exactly that fault. -/
theorem exec_of_cause {kind : FaultKind} {info : Nat} (h : causeOf s i = some (kind, info)) :
    exec i s = .next (Faulted s kind (encode i) info) := by
  obtain ⟨t, hexec, hcase⟩ := exec_ends i s
  cases hcase with
  | faults kind' info' hcause =>
    obtain ⟨rfl, rfl⟩ : kind' = kind ∧ info' = info := by simpa using hcause.symm.trans h
    exact hexec
  | completes hcause => rw [hcause] at h; cases h
  | waits x hi => subst hi; cases h

/-- Where the table names none, the instruction leaves a live mode and the record as it was. -/
theorem exec_of_no_cause (hcause : causeOf s i = none) (h : exec i s = .next t) :
    t.mode ≠ .halted ∧ t.fault = s.fault := by
  cases exec_inv h with
  | faults kind info hsome => rw [hcause] at hsome; cases hsome
  | completes _ hrun hfault => exact ⟨by simp [hrun], hfault⟩
  | waits => exact ⟨nofun, rfl⟩

/-- Settles O19: the three ways an instruction can end, sorted by the table. -/
theorem instructionsFaultExactlyByTheTable : Obligations.InstructionsFaultExactlyByTheTable :=
  fun i s => ⟨fun _ _ => exec_of_cause, fun hcause =>
    (exec_next i s).imp fun _ h => ⟨h, exec_of_no_cause hcause h⟩⟩

/-- Settles O23: each way an instruction can end keeps its frame. -/
theorem everyInstructionKeepsItsFrame : Obligations.EveryInstructionKeepsItsFrame :=
  fun _ _ _ h => ⟨exec_frame h, fun hcause => (exec_of_no_cause hcause h).2⟩

/-! ## The flag register (10_state.md R21) -/

/-- The instructions whose write set has `VF`: the flag writers, and those with the destination `VF`. -/
theorem writesVF_of_mayTouch (h : (mayTouch s i).regs 0xF = true) :
    (∃ x y, i = .add x y ∨ i = .sub x y ∨ i = .shr x y ∨ i = .subn x y ∨ i = .shl x y) ∨ (∃ x y n, i = .drw x y n) ∨
    (∃ nn, i = .ldi 0xF nn ∨ i = .addi 0xF nn ∨ i = .rnd 0xF nn) ∨
    (∃ y, i = .mov 0xF y ∨ i = .or 0xF y ∨ i = .and 0xF y ∨ i = .xor 0xF y) ∨
    i = .lddt 0xF ∨ i = .wkey 0xF ∨ i = .ldm 0xF := by
  cases i with
  | add x y | sub x y | shr x y | subn x y | shl x y => exact .inl ⟨x, y, by simp⟩
  | drw x y n => exact .inr (.inl ⟨x, y, n, rfl⟩)
  | ldi x | addi x | rnd x | mov x | or x | and x | xor x | lddt x | wkey x =>
    obtain rfl : 0xF = x := by simpa [mayTouch, touchReg] using h
    simp
  | ldm x =>
    have hx : 15 ≤ x.toNat := of_decide_eq_true h
    obtain rfl : x = 0xF := BitVec.eq_of_toNat_eq (by simp; omega)
    simp
  | _ => cases h

/-- The flag an instruction writes after its result is what `VF` holds. -/
theorem VF_of_setVAndFlag {x : Reg} {b c : Byte} (hexec : exec i s = .next (completeNext (setVAndFlag s x b c)))
    (h : exec i s = .next t) : getV t 0xF = c := by
  obtain ⟨u, hu, _, _, hflag, _⟩ := completes_of_setVAndFlag hexec
  exact next_unique hu h ▸ hflag

theorem shiftedOutLow_zero_or_one (a : Byte) : shiftedOutLow a = 0 ∨ shiftedOutLow a = 1 := by
  rw [shiftedOutLow_eq]; split <;> simp

theorem shiftedOutHigh_zero_or_one (a : Byte) : shiftedOutHigh a = 0 ∨ shiftedOutHigh a = 1 := by
  rw [shiftedOutHigh_eq]; split <;> simp

/-- A draw that does not fault draws. -/
theorem eq_drawn {x y : Reg} {n : Nibble} (h : exec (.drw x y n) s = .next t) (hm : t.mode ≠ .halted) :
    t = drawn s x y n := by
  rw [exec_drw] at h
  rcases withRange_cases s (.drw x y n) s.i.toNat n.toNat (drawn s x y n) with ⟨_, _, hfault⟩ | ⟨_, hnext⟩
  · obtain rfl := next_unique hfault h
    exact absurd rfl hm
  · exact next_unique h hnext

theorem VF_of_drw {x y : Reg} {n : Nibble} (h : exec (.drw x y n) s = .next t) (hm : t.mode ≠ .halted) :
    getV t 0xF = 0 ∨ getV t 0xF = 1 := by
  obtain rfl := eq_drawn h hm
  rw [getV_drawn_VF]
  exact flagByte_zero_or_one _

/-- Settles O24: a changed `VF` is in the write set, and each flag is 0 or 1 by its definition. -/
theorem onlyListedInstructionsWriteTheFlag : Obligations.OnlyListedInstructionsWriteTheFlag := by
  refine fun i s t h => ⟨fun hne => writesVF_of_mayTouch (s := s) ?_, ?_⟩
  · by_contra hkept
    exact hne ((exec_frame h).getV_eq (Bool.eq_false_iff.mpr hkept))
  · rintro (⟨x, y, rfl | rfl | rfl | rfl | rfl⟩ | ⟨x, y, n, rfl⟩) hm
    · rw [VF_of_setVAndFlag rfl h]; exact flagByte_zero_or_one _
    · rw [VF_of_setVAndFlag rfl h]; exact flagByte_zero_or_one _
    · rw [VF_of_setVAndFlag rfl h]; exact shiftedOutLow_zero_or_one _
    · rw [VF_of_setVAndFlag rfl h]; exact flagByte_zero_or_one _
    · rw [VF_of_setVAndFlag rfl h]; exact shiftedOutHigh_zero_or_one _
    · exact VF_of_drw h hm

/-! ## The sound timer and the dirty flag are not read (10_state.md R27, R31) -/

/-- `s` with another sound timer and dirty flag. -/
def withSoundAndDirty (s : State) (b : Byte) (d : Bool) : State := { s with st := b, dirty := d }

/-- The two states differ in the sound timer and the dirty flag only. -/
def AlikeButSoundAndDirty (t u : State) : Prop := withSoundAndDirty u t.st t.dirty = t

/-- The two answers are next states that differ in the sound timer and the dirty flag only. -/
def AnswersAlike (r r' : Result) : Prop := ∃ t u, r = .next t ∧ r' = .next u ∧ AlikeButSoundAndDirty t u

theorem loadRegs_withSoundAndDirty (s : State) (b : Byte) (d : Bool) (k : Nat) (bs : List Byte) :
    loadRegs (withSoundAndDirty s b d) k bs = withSoundAndDirty (loadRegs s k bs) b d := by
  induction bs generalizing s k with
  | nil => rfl
  | cons c bs ih => exact ih (setV s (BitVec.ofNat 4 k) c) (k + 1)

theorem loaded_withSoundAndDirty (s : State) (x : Reg) (b : Byte) (d : Bool) :
    loaded (withSoundAndDirty s b d) x = withSoundAndDirty (loaded s x) b d :=
  congrArg completeNext (loadRegs_withSoundAndDirty s b d 0 _)

/-- A range check reads no state: what follows it decides. -/
theorem answersAlike_withRange {i : Instr} {base len : Nat} {b : Byte} {d : Bool} {t u : State}
    (h : AlikeButSoundAndDirty t u) :
    AnswersAlike (withRange s i base len t) (withRange (withSoundAndDirty s b d) i base len u) := by
  unfold withRange
  cases outOfRange base len with
  | none => exact ⟨_, _, rfl, rfl, h⟩
  | some a => exact ⟨_, _, rfl, rfl, rfl⟩

/-- Every meaning computes from the other fields alike, in the branches of its checks too. -/
theorem exec_withSoundAndDirty (i : Instr) (s : State) (b : Byte) (d : Bool) :
    AnswersAlike (exec i s) (exec i (withSoundAndDirty s b d)) := by
  cases i with
  | ret =>
    rcases Nat.eq_zero_or_pos s.sp.val with hsp | hsp
    · exact ⟨_, _, exec_ret_of_empty hsp, exec_ret_of_empty hsp, rfl⟩
    · obtain ⟨k, hk⟩ := exists_topEntry hsp
      exact ⟨_, _, exec_ret_of_entry hk, exec_ret_of_entry (s := withSoundAndDirty s b d) hk, rfl⟩
  | call nnn =>
    rcases (by omega : s.sp.val = 16 ∨ s.sp.val < 16) with hsp | hsp
    · exact ⟨_, _, exec_call_of_full nnn hsp, exec_call_of_full nnn hsp, rfl⟩
    · exact ⟨_, _, exec_call_of_room nnn hsp, exec_call_of_room (s := withSoundAndDirty s b d) nnn hsp, rfl⟩
  | skp x =>
    cases hk : keyOperand s x with
    | none => exact ⟨_, _, exec_skp_of_no_key hk, exec_skp_of_no_key hk, rfl⟩
    | some k => exact ⟨_, _, exec_skp_of_key hk, exec_skp_of_key hk, rfl⟩
  | sknp x =>
    cases hk : keyOperand s x with
    | none => exact ⟨_, _, exec_sknp_of_no_key hk, exec_sknp_of_no_key hk, rfl⟩
    | some k => exact ⟨_, _, exec_sknp_of_key hk, exec_sknp_of_key hk, rfl⟩
  | wkey x =>
    cases hk : pressedKey s with
    | none => exact ⟨_, _, exec_wkey_of_no_key hk, exec_wkey_of_no_key hk, rfl⟩
    | some k => exact ⟨_, _, exec_wkey_of_key hk, exec_wkey_of_key hk, rfl⟩
  | drw | bcd | stm => exact answersAlike_withRange rfl
  | ldm x =>
    rw [exec_ldm, exec_ldm, loaded_withSoundAndDirty]
    exact answersAlike_withRange rfl
  | _ => exact ⟨_, _, rfl, rfl, rfl⟩

/-- Settles O25: the two runs answer alike. -/
theorem noInstructionReadsSoundTimerOrDirty : Obligations.NoInstructionReadsSoundTimerOrDirty := by
  intro i s t b d h
  obtain ⟨t', u, hexec, hexec', halike⟩ := exec_withSoundAndDirty i s b d
  obtain rfl := next_unique hexec h
  exact ⟨u, hexec', halike⟩

end Sys2Proof.Machine

/-! PROOFS about every `Step` (40_step_cycle.md R120 to R126): what it answers, what it reports (00_scope.md R10)
and that its faults are precise (60_exceptions.md R253). -/

namespace Sys2Proof.Machine

variable {i : Instr} {s t : State}

/-! ## What every `Step` can do -/

/-- The four ways a `Step` from `s` can end. -/
inductive StepCase (s : State) : State → Prop where
  /-- In `Halted` nothing happens. -/
  | halted (mode : s.mode = .halted) : StepCase s s
  /-- The fetch faults. -/
  | fetchFault (mode : s.mode ≠ .halted) (a : Nat) (fetched : fetch s = .error a) :
      StepCase s (Faulted s .outOfRangeMemoryAccess 0 a)
  /-- The fetched word is unknown. -/
  | unknown (mode : s.mode ≠ .halted) (w : Word) (fetched : fetch s = .ok w) (e : DecodeError)
      (refused : decode w = .error e) : StepCase s (Faulted s .unknownOpcode w 0)
  /-- The fetched word is an instruction's. -/
  | runs {t : State} (mode : s.mode ≠ .halted) (i : Instr) (fetched : fetch s = .ok (encode i))
      (exec_eq : exec i s = .next t) : StepCase s t

theorem engineStep_inv (h : engineStep s = .next t) : StepCase s t := by
  by_cases hm : s.mode = .halted
  · exact next_unique (engineStep_of_halted hm) h ▸ .halted hm
  · cases hf : fetch s with
    | error a => exact next_unique (engineStep_of_fetch_error hm hf) h ▸ .fetchFault hm a hf
    | ok w =>
      cases hd : decode w with
      | error e => exact next_unique (engineStep_of_refused hm hf hd) h ▸ .unknown hm w hf e hd
      | ok i => exact .runs hm i (by rw [hf, encode_of_decode hd]) ((engineStep_of_decode hm hf hd).symm.trans h)

theorem engineStep_next (s : State) : ∃ t, engineStep s = .next t := by
  rcases engineStep_cases s with ⟨_, h⟩ | ⟨_, _, h⟩ | ⟨_, _, i, _, h⟩ | ⟨_, _, _, h⟩
  · exact ⟨_, h⟩
  · exact ⟨_, h⟩
  · rw [h]; exact exec_next i s
  · exact ⟨_, h⟩

/-- Settles O16: an instruction answers, and so does what a `Step` does without one. -/
theorem everyInstructionAndStepAnswers : Obligations.EveryInstructionAndStepAnswers :=
  ⟨exec_next, engineStep_next⟩

/-- Settles O20: each of the three faults a `Step` can take is precise. -/
theorem faultingStepsArePrecise : Obligations.FaultingStepsArePrecise := by
  intro s t hm hstep ht
  cases engineStep_inv hstep with
  | halted hhalted => exact absurd hhalted hm
  | fetchFault _ a hf => exact ⟨.outOfRangeMemoryAccess, a, by simp [hf], by simp [hf]⟩
  | unknown _ w hf => exact ⟨.unknownOpcode, 0, by simp [hf], by simp [hf]⟩
  | runs _ i hf hexec =>
    cases exec_inv hexec with
    | faults kind info => exact ⟨kind, info, by simp [hf], by simp [hf]⟩
    | completes _ hrun => rw [ht] at hrun; cases hrun
    | waits => cases ht

/-! ## Reports -/

/-- The word of `IDLE` is no other instruction's. -/
theorem encode_eq_zero : encode i = 0 ↔ i = .idle := by
  refine ⟨fun h => ?_, fun h => by rw [h]; rfl⟩
  have hd := decode_encode i
  rw [h] at hd
  exact (Except.ok.inj hd).symm

/-- The report of a fetched instruction, read off the mode it leaves. -/
theorem stepReport_of_runs (hm : s.mode ≠ .halted) (hf : fetch s = .ok (encode i)) (hexec : exec i s = .next t) :
    stepReport s = reportOf i (.next t) := by
  rw [stepReport_of_decode hm hf (decode_encode i), hexec]

section
variable (hm : s.mode ≠ .halted) (hf : fetch s = .ok (encode i)) (hexec : exec i s = .next t)
include hm hf hexec

theorem stepReport_of_fault (ht : t.mode = .halted) : stepReport s = ⟨.fault, false⟩ := by
  rw [stepReport_of_runs hm hf hexec]; simp only [reportOf, ht]

theorem stepReport_of_wait (ht : t.mode = .waitingForKey) : stepReport s = ⟨.waiting, false⟩ := by
  rw [stepReport_of_runs hm hf hexec]; simp only [reportOf, ht]

theorem stepReport_of_executed (hi : i ≠ .idle) (ht : t.mode = .running) :
    stepReport s = ⟨.executed, drawsScreen i⟩ := by
  rw [stepReport_of_runs hm hf hexec]; simp only [reportOf, ht, if_neg hi]

end

/-- Settles O17: a fault before an instruction leaves `Halted`, and an instruction's report is its mode's. -/
theorem stepReportNamesTheOutcome : Obligations.StepReportNamesTheOutcome := by
  intro s t hstep
  cases engineStep_inv hstep with
  | halted hm => simp [stepReport_of_halted hm, hm]
  | fetchFault hm a hf => simp [stepReport_of_fetch_error hm hf, Faulted, hm, hf]
  | unknown hm w hf e hd =>
    have hw : w ≠ 0#16 := fun h => by rw [h] at hd; cases hd
    simp [stepReport_of_refused hm hf hd, Faulted, hm, hf, hw]
  | runs hm i hf hexec =>
    have hidle : fetch s = .ok 0 ↔ i = .idle := by rw [hf, Except.ok.injEq, encode_eq_zero]
    rw [hidle]
    by_cases hi : i = .idle
    · subst hi
      obtain rfl : idleState s = t := next_unique rfl hexec
      simp [stepReport_of_runs hm hf hexec, reportOf, hm]
    · cases ht : t.mode with
      | halted => simp [stepReport_of_fault hm hf hexec ht, hm, hi]
      | waitingForKey => simp [stepReport_of_wait hm hf hexec ht, hm, hi]
      | running => simp [stepReport_of_executed hm hf hexec hi ht, hm, hi]

/-! ## Draws -/

theorem drawsScreen_iff : drawsScreen i = true ↔ i = .cls ∨ ∃ x y n, i = .drw x y n := by
  cases i <;> simp [drawsScreen]

/-- The two drawing instructions are those whose write set has the screen. -/
theorem mayTouch_screen (s : State) (i : Instr) : (mayTouch s i).screen = drawsScreen i := by cases i <;> rfl

/-- Both drawing instructions raise the dirty flag when they complete (10_state.md R31). -/
theorem dirty_of_draws (hi : drawsScreen i = true) (hexec : exec i s = .next t) (ht : t.mode ≠ .halted) :
    t.dirty = true := by
  rcases drawsScreen_iff.mp hi with rfl | ⟨x, y, n, rfl⟩
  · obtain rfl := Host.Outcome.next.inj hexec
    rfl
  · rw [eq_drawn hexec ht]
    rfl

/-- An instruction that does not complete, by a fault or a wait, leaves the screen alone. -/
theorem screen_of_not_completed (hexec : exec i s = .next t) (ht : t.mode ≠ .running) :
    t.dirty = s.dirty ∧ ∀ cx cy, pixel t.fb cx cy = pixel s.fb cx cy := by
  cases exec_inv hexec with
  | completes _ hrun => exact absurd hrun ht
  | faults | waits => exact ⟨rfl, fun _ _ => rfl⟩

/-- No drawing instruction waits. -/
theorem running_of_draws (hi : drawsScreen i = true) (hexec : exec i s = .next t) (ht : t.mode ≠ .halted) :
    t.mode = .running := by
  cases exec_inv hexec with
  | faults => exact absurd rfl ht
  | completes _ hrun => exact hrun
  | waits x hx => subst hx; cases hi

/-- `drew` is reported exactly when a drawing instruction completes. -/
theorem stepReport_drew (hm : s.mode ≠ .halted) (hf : fetch s = .ok (encode i)) (hexec : exec i s = .next t) :
    (stepReport s).drew = true ↔ drawsScreen i = true ∧ t.mode = .running := by
  by_cases hi : i = .idle
  · subst hi
    obtain rfl : idleState s = t := next_unique rfl hexec
    simp [stepReport_of_runs hm hf hexec, reportOf, drawsScreen]
  · cases ht : t.mode with
    | halted => simp [stepReport_of_fault hm hf hexec ht]
    | waitingForKey => simp [stepReport_of_wait hm hf hexec ht]
    | running => simp [stepReport_of_executed hm hf hexec hi ht]

/-- What the report says of a step that runs a fetched instruction. -/
theorem drew_of_runs (hm : s.mode ≠ .halted) (hf : fetch s = .ok (encode i)) (hexec : exec i s = .next t) :
    ((stepReport s).drew = true → t.dirty = true ∧ (stepReport s).result = .executed ∧ drawsScreen i = true) ∧
    ((stepReport s).drew = false → t.dirty = s.dirty ∧ ∀ cx cy, pixel t.fb cx cy = pixel s.fb cx cy) ∧
    (drawsScreen i = true → t.mode ≠ .halted → stepReport s = ⟨.executed, true⟩) := by
  have hdrew := stepReport_drew hm hf hexec
  have hreport : drawsScreen i = true → t.mode = .running → stepReport s = ⟨.executed, true⟩ := fun hi ht => by
    have hidle : i ≠ .idle := fun h => by rw [h] at hi; cases hi
    rw [stepReport_of_executed hm hf hexec hidle ht, hi]
  refine ⟨fun h => ?_, fun h => ?_, fun hi ht => hreport hi (running_of_draws hi hexec ht)⟩
  · obtain ⟨hi, ht⟩ := hdrew.mp h
    exact ⟨dirty_of_draws hi hexec (by simp [ht]), by rw [hreport hi ht], hi⟩
  · by_cases ht : t.mode = .running
    · have hi : drawsScreen i = false := Bool.eq_false_iff.mpr fun hi => by simp [hdrew.mpr ⟨hi, ht⟩] at h
      exact (exec_frame hexec).screen_eq ((mayTouch_screen s i).trans hi)
    · exact screen_of_not_completed hexec ht

/-- Settles O18: a step without an instruction draws nothing, and one with an instruction draws by the instruction. -/
theorem drewReportsExactlyTheDraws : Obligations.DrewReportsExactlyTheDraws := by
  intro s t hstep
  cases engineStep_inv hstep with
  | halted hm =>
    rw [stepReport_of_halted hm]
    exact ⟨nofun, fun _ => ⟨rfl, fun _ _ => rfl⟩, fun _ _ hlive => absurd hm hlive⟩
  | fetchFault hm a hf =>
    rw [stepReport_of_fetch_error hm hf]
    exact ⟨nofun, fun _ => ⟨rfl, fun _ _ => rfl⟩, fun w _ _ hw => by rw [hf] at hw; cases hw⟩
  | unknown hm w hf e hd =>
    rw [stepReport_of_refused hm hf hd]
    exact ⟨nofun, fun _ => ⟨rfl, fun _ _ => rfl⟩, fun w' i _ hw' hi => by
      rw [hf] at hw'; cases hw'; rw [hd] at hi; cases hi⟩
  | runs hm i hf hexec =>
    obtain ⟨hdrew, hkept, hreport⟩ := drew_of_runs hm hf hexec
    refine ⟨fun h => ?_, hkept, fun w j _ hw hj hdraws ht => ?_⟩
    · obtain ⟨hdirty, hresult, hi⟩ := hdrew h
      refine ⟨hdirty, hresult, ?_⟩
      rcases drawsScreen_iff.mp hi with rfl | ⟨x, y, n, rfl⟩
      · exact .inr ⟨_, hf, decode_encode _⟩
      · exact .inl ⟨x, y, n, _, hf, decode_encode _⟩
    · obtain rfl : encode i = w := Except.ok.inj (hf.symm.trans hw)
      obtain rfl : i = j := Except.ok.inj ((decode_encode i).symm.trans hj)
      exact hreport (drawsScreen_iff.mpr hdraws) ht

end Sys2Proof.Machine

/-! PROOFS about the events (00_scope.md R5; 60_exceptions.md R256 to R264; 70_reset_and_hazards.md R290 to R292):
what each of them can do, and in which order they come. -/

namespace Sys2Proof.Machine

variable {s t : State} {e : Event}

/-! ## What every event can do -/

/-- The state after a reset with the image `rom` (70_reset_and_hazards.md R290). -/
def afterReset (s : State) (rom : List Byte) : State :=
  { State.reset with mem := imageMemory rom, draws := s.draws, agenda := s.agenda, turns := s.turns }

/-- What each event that answers a next state leaves. -/
inductive EventCase (s : State) : Event → State → Prop where
  | step {t : State} (stepped : engineStep s = .next t) : EventCase s .step t
  | tick : EventCase s .tick (tick s)
  | setKeys (k : BitVec 16) : EventCase s (.setKeys k) (setKeys s k)
  | ackDirty : EventCase s .ackDirty (ackDirty s)
  | reset (rom : List Byte) (short : rom.length ≤ 3584) : EventCase s (.reset rom) (afterReset s rom)

theorem performEvent_inv (h : performEvent s e = .next t) : EventCase s e t := by
  cases e with
  | step => exact .step h
  | tick => exact next_unique rfl h ▸ .tick
  | setKeys k => exact next_unique rfl h ▸ .setKeys k
  | ackDirty => exact next_unique rfl h ▸ .ackDirty
  | reset rom =>
    rcases resetEngine_cases s rom with ⟨hlen, hnext⟩ | ⟨_, hrefused⟩
    · exact next_unique hnext h ▸ .reset rom hlen
    · cases hrefused.symm.trans h

/-! ## `Tick`, `SetKeys` and `AckDirty` -/

theorem tick_of_halted (h : s.mode = .halted) : tick s = s := by
  simp only [tick, h]

theorem tick_of_running (h : s.mode ≠ .halted) : tick s = { s with dt := countDown s.dt, st := countDown s.st } := by
  cases hm : s.mode with
  | halted => exact absurd hm h
  | running => simp only [tick, hm]
  | waitingForKey => simp only [tick, hm]

/-- Settles O29: outside `Halted` a tick is two count-downs. -/
theorem tickCountsBothTimersDown : Obligations.TickCountsBothTimersDown := by
  refine fun s => ⟨fun h => ⟨_, rfl, ?_⟩, fun h => congrArg Host.Outcome.next (tick_of_halted h)⟩
  rw [tick_of_running h]
  exact ⟨toNat_countDown _, toNat_countDown _, rfl⟩

/-- Settles O30: each event writes its own flags. -/
theorem setKeysAndAckDirtyWriteOnlyTheirFlags : Obligations.SetKeysAndAckDirtyWriteOnlyTheirFlags :=
  fun s k => ⟨⟨_, rfl, keyDown_setKeys s k, rfl⟩, ⟨_, rfl, rfl⟩⟩

/-- Settles O21: a `Step` and a `Tick` of a halted engine are no change, the host's two events write the keys and the dirty
flag. -/
theorem haltedFreezesTheEngineUntilReset : Obligations.HaltedFreezesTheEngineUntilReset := by
  intro s t e hm hreset h
  cases performEvent_inv h with
  | step hstep => obtain rfl := next_unique (engineStep_of_halted hm) hstep; rfl
  | tick => rw [tick_of_halted hm]
  | setKeys | ackDirty => rfl
  | reset rom => exact absurd rfl (hreset rom)

/-! ## The order of events (60_exceptions.md R261) -/

/-- Every event but an over-long reset answers a next state. -/
theorem performEvent_next (s : State) (h : ∀ rom, e = .reset rom → rom.length ≤ 3584) :
    ∃ t, performEvent s e = .next t := by
  cases e with
  | step => exact engineStep_next s
  | tick | setKeys | ackDirty => exact ⟨_, rfl⟩
  | reset rom =>
    rcases resetEngine_cases s rom with ⟨_, hnext⟩ | ⟨hlong, _⟩
    · exact ⟨_, hnext⟩
    · exact absurd (h rom rfl) (by omega)

/-- A `Step` neither takes nor adds an event. -/
theorem engineStep_events (h : engineStep s = .next t) : t.agenda = s.agenda ∧ t.turns = s.turns := by
  cases engineStep_inv h with
  | halted | fetchFault | unknown => exact ⟨rfl, rfl⟩
  | runs _ i _ hexec => exact (exec_frame hexec).events_eq

theorem performEvent_events (h : performEvent s e = .next t) : t.agenda = s.agenda ∧ t.turns = s.turns := by
  cases performEvent_inv h with
  | step hstep => exact engineStep_events hstep
  | tick => exact ⟨tick_agenda s, tick_turns s⟩
  | setKeys | ackDirty | reset => exact ⟨rfl, rfl⟩

/-- Settles O10: the step takes the oldest event or the environment's choice, which is never an over-long image. -/
theorem eventsComeInAnyOrder : Obligations.EventsComeInAnyOrder := by
  refine ⟨fun _ _ _ => step_of_agenda, fun s hnil => ⟨step_of_no_agenda hnil, ?_⟩, fun _ => allowedEvent_of_short,
    fun _ _ _ => performEvent_events⟩
  rw [step_of_no_agenda hnil]
  exact performEvent_next _ fun _ => allowedEvent_reset_le

/-- Settles O11, by induction on the number of ticks: the first one is the next step, and the state after it has one fewer
lined up. -/
theorem ticksBeforeAStepAreNeverLost : Obligations.TicksBeforeAStepAreNeverLost := by
  intro n
  induction n with
  | zero =>
    intro s rest _ hagenda
    have hnow : s.agenda = .step :: rest := hagenda
    exact ⟨s, rfl, rfl, rfl, by rw [← hnow]⟩
  | succ n ih =>
    intro s rest hm hagenda
    rw [List.replicate_succ, List.cons_append] at hagenda
    have hstep := step_of_agenda hagenda
    have hlive : ({ s with agenda := List.replicate n .tick ++ .step :: rest } : State).mode ≠ .halted := hm
    rw [performEvent, tick_of_running hlive] at hstep
    obtain ⟨t, hrun, hdt, hst, heq⟩ := ih
      { s with dt := countDown s.dt, st := countDown s.st, agenda := List.replicate n .tick ++ .step :: rest } rest hm rfl
    rw [toNat_countDown] at hdt hst
    exact ⟨t, (core_run_succ hstep n).trans hrun, by omega, by omega, heq⟩

/-! ## The delay timer (R261) -/

/-- The step performs the next event in the state with that event taken off. -/
theorem step_eq (s : State) : step s = performEvent (takeEvent s) (upcoming s) := rfl

theorem mayTouch_dt {i : Instr} (h : ∀ x, i ≠ .stdt x) : (mayTouch s i).dt = false := by
  cases i with
  | stdt x => exact absurd rfl (h x)
  | _ => rfl

theorem engineStep_dt_le (hstdt : ∀ w x, fetch s = .ok w → decode w ≠ .ok (.stdt x)) (h : engineStep s = .next t) :
    t.dt.toNat ≤ s.dt.toNat := by
  cases engineStep_inv h with
  | halted | fetchFault | unknown => exact le_rfl
  | runs _ i hf hexec =>
    have hi : ∀ x, i ≠ .stdt x := fun x hx => hstdt _ x hf (hx ▸ decode_encode i)
    rw [(exec_frame hexec).dt_eq (mayTouch_dt hi)]

theorem tick_dt_le (s : State) : (tick s).dt.toNat ≤ s.dt.toNat := by
  by_cases hm : s.mode = .halted
  · rw [tick_of_halted hm]
  · rw [tick_of_running hm]
    exact (toNat_countDown _).trans_le (Nat.sub_le _ _)

/-- Settles O31: only `FX15` has the delay timer in its write set, and a tick counts down. -/
theorem delayTimerRisesOnlyBySetting : Obligations.DelayTimerRisesOnlyBySetting := by
  intro s t h hreset hstdt
  rw [step_eq] at h
  rw [← takeEvent_dt s]
  generalize upcoming s = e at h hreset
  cases performEvent_inv h with
  | step hstep => exact engineStep_dt_le (by rwa [fetch_takeEvent]) hstep
  | tick => exact tick_dt_le _
  | setKeys | ackDirty => exact le_rfl
  | reset rom => exact absurd rfl (hreset rom)

/-! ## The reserved fault kind (60_exceptions.md R251) -/

/-- `t` has the record `s` had, or none, or one of a kind that some rule raises. -/
def RaisesNoReservedKind (s t : State) : Prop :=
  ∀ r, t.fault = some r → r.kind = .invalidRegisterIndex → s.fault = some r

theorem raisesNoReservedKind_of_eq (h : t.fault = s.fault) : RaisesNoReservedKind s t := fun _ hr _ => h ▸ hr

theorem raisesNoReservedKind_Faulted {kind : FaultKind} (hkind : kind ≠ .invalidRegisterIndex) (s : State) (w : Word)
    (info : Nat) : RaisesNoReservedKind s (Faulted s kind w info) := fun r hr hres => by
  obtain rfl := Option.some.inj hr
  exact absurd hres hkind

theorem exec_raisesNoReservedKind {i : Instr} (h : exec i s = .next t) : RaisesNoReservedKind s t := by
  cases exec_inv h with
  | faults kind info _ hkind => exact raisesNoReservedKind_Faulted hkind s _ info
  | completes _ _ hfault => exact raisesNoReservedKind_of_eq hfault
  | waits => exact raisesNoReservedKind_of_eq rfl

theorem engineStep_raisesNoReservedKind (h : engineStep s = .next t) : RaisesNoReservedKind s t := by
  cases engineStep_inv h with
  | halted => exact raisesNoReservedKind_of_eq rfl
  | fetchFault | unknown => exact raisesNoReservedKind_Faulted (by decide) s _ _
  | runs _ i _ hexec => exact exec_raisesNoReservedKind hexec

theorem performEvent_raisesNoReservedKind (h : performEvent s e = .next t) : RaisesNoReservedKind s t := by
  cases performEvent_inv h with
  | step hstep => exact engineStep_raisesNoReservedKind hstep
  | tick => exact raisesNoReservedKind_of_eq (tick_fault s)
  | setKeys | ackDirty => exact raisesNoReservedKind_of_eq rfl
  | reset => exact nofun

/-- Settles O22: the next event is performed in a state with the same record. -/
theorem reservedFaultKindIsNeverRaised : Obligations.ReservedFaultKindIsNeverRaised := by
  intro s t r h hr hkind
  rw [← takeEvent_fault s]
  exact performEvent_raisesNoReservedKind h r hr hkind

/-! ## Reset -/

theorem getV_reset (r : Reg) : getV State.reset r = 0 := by
  simp [getV, State.reset]

theorem stack_reset (k : Fin 16) : State.reset.stack[k.val] = 0 := by
  simp [State.reset]

theorem keyDown_reset (k : Reg) : keyDown State.reset k = false := by
  simp [keyDown, State.reset]

theorem pixel_reset (x : Fin 64) (y : Fin 32) : pixel State.reset.fb x y = false :=
  pixel_blankScreen x y

theorem length_glyphTable : glyphTable.length = 80 := rfl

/-- Above the glyph table memory is 0 at reset (20_memory.md R62). -/
theorem resetByte_above {a : Nat} (h : 80 ≤ a) : resetByte a = 0 :=
  List.getD_eq_default _ _ (by rwa [length_glyphTable])

/-- The image stands verbatim from `0x200` up (70_reset_and_hazards.md R292). -/
theorem read_imageMemory_inside (rom : List Byte) {j : Nat} (h : j < rom.length) :
    Memory.read (imageMemory rom) (0x200 + j) = rom[j] :=
  Memory.read_writeBytes_inside (by simp [Memory.wf]) _ rom h

/-- Settles O28: memory is the image over its reset contents, everything else is the reset state's. -/
theorem resetLoadsTheImageAndClearsTheEngine : Obligations.ResetLoadsTheImageAndClearsTheEngine := by
  intro s rom
  rcases resetEngine_cases s rom with ⟨hlen, hnext⟩ | ⟨hlen, hrefused⟩
  · have hbelow : ∀ a, a < 80 → Memory.read (imageMemory rom) a = resetByte a := fun a ha =>
      read_imageMemory_outside rom (.inl (by omega))
    have hzero : ∀ a, 80 ≤ a → a < 0x200 ∨ 0x200 + rom.length ≤ a → Memory.read (imageMemory rom) a = 0 :=
      fun a ha hout => (read_imageMemory_outside rom hout).trans (resetByte_above ha)
    refine ⟨fun _ => ⟨_, hnext, fun j hj => read_imageMemory_inside rom hj, hbelow 0 (by decide), hbelow 1 (by decide),
      hbelow, hzero, getV_reset, rfl, rfl, rfl, stack_reset, rfl, rfl, keyDown_reset, pixel_reset, rfl, rfl, rfl⟩,
      fun hlong => by omega⟩
  · exact ⟨fun h => by omega, fun _ => hrefused⟩

end Sys2Proof.Machine

/-! PROOFS of the invariant (10_state.md R23, R33; 20_memory.md R60; 40_step_cycle.md R125): every
event keeps it. -/

namespace Sys2Proof.Machine

variable {i : Instr} {s t : State} {e : Event}

/-! ## The parts an instruction's effect keeps -/

theorem Effect.memoryOk (h : Effect i s t) (hs : MemoryOk s) : MemoryOk t := by
  obtain ⟨hwf, hbelow⟩ := hs
  unfold MemoryOk
  rcases h.mem with hmem | ⟨bs, hmem, hle⟩
  · rw [hmem]; exact ⟨hwf, hbelow⟩
  · rw [hmem]; exact ⟨Memory.writeBytes_wf hwf _ bs, Memory.writeBytes_below hbelow bs hle⟩

/-- The largest `PC`: four past a fetchable one, two past a return address, or the farthest indexed jump (R23). -/
theorem Effect.pcOk (h : Effect i s t) (hstack : StackOk s) (hp : s.pc.toNat ≤ 0xFFE) : PcOk t := by
  rcases h.pc with hpc | hpc | ⟨k, hk, hpc⟩
  · exact hpc.trans (by omega)
  · exact hpc
  · have hret := hstack k hk
    exact hpc.trans (by omega)

/-- The address pushed is one that was fetched (41_control_flow.md R140). -/
theorem Effect.stackOk (h : Effect i s t) (hs : StackOk s) (hp : s.pc.toNat ≤ 0xFFE) : StackOk t := by
  intro k hk
  rcases h.stack with ⟨hstack, hsp⟩ | ⟨hlt, hstack, hsp⟩
  · simp only [hstack]
    exact hs k (by omega)
  · simp only [hstack, Vector.getElem_set]
    split
    · exact hp
    · exact hs k (by omega)

/-! ## The invariant, event by event -/

theorem EngineInv.fault_eq_none (h : EngineInv s) (hm : s.mode ≠ .halted) : s.fault = none := by
  obtain ⟨_, _, _, ⟨hfault, _⟩, _⟩ := h
  by_contra hne
  exact hm (hfault.mp hne)

/-- A fault freezes a state that meets the invariant. -/
theorem EngineInv.faulted (h : EngineInv s) {kind : FaultKind} (hkind : kind ≠ .invalidRegisterIndex) (w : Word)
    (info : Nat) : EngineInv (Faulted s kind w info) := by
  obtain ⟨hmem, hpc, hstack, _, _⟩ := h
  refine ⟨hmem, hpc, hstack, ⟨⟨fun _ => rfl, fun _ => nofun⟩, fun r hr => ?_⟩, nofun⟩
  obtain rfl := Option.some.inj hr
  exact ⟨rfl, hkind⟩

/-- A wait at the `FX0A` that was fetched. -/
theorem EngineInv.waits (h : EngineInv s) {x : Reg} (hfault : s.fault = none) (hf : fetch s = .ok (encode (.wkey x))) :
    EngineInv (waitForKey s) := by
  obtain ⟨hmem, hpc, hstack, _, _⟩ := h
  refine ⟨hmem, hpc, hstack, ⟨by simp [hfault], fun r hr => ?_⟩, fun _ => ⟨_, x, hf, decode_encode _⟩⟩
  rw [waitForKey_fault, hfault] at hr
  cases hr

/-- A live mode that is not waiting needs no fault record and no `FX0A`. -/
theorem engineInv_of_running (hmem : MemoryOk t) (hpc : PcOk t) (hstack : StackOk t) (hm : t.mode = .running)
    (hfault : t.fault = none) : EngineInv t := by
  refine ⟨hmem, hpc, hstack, ⟨?_, fun r hr => ?_⟩, fun hwait => ?_⟩
  · simp [hm, hfault]
  · rw [hfault] at hr; cases hr
  · rw [hm] at hwait; cases hwait

theorem exec_keeps_inv (hs : EngineInv s) (hm : s.mode ≠ .halted) (hf : fetch s = .ok (encode i))
    (h : exec i s = .next t) : EngineInv t := by
  have hnone := hs.fault_eq_none hm
  cases exec_inv h with
  | faults kind info _ hkind => exact hs.faulted hkind _ info
  | completes _ hrun hfault heffect =>
    obtain ⟨hmem, _, hstack, _, _⟩ := hs
    have ⟨hp, _⟩ := fetch_eq_ok.mp hf
    exact engineInv_of_running (heffect.memoryOk hmem) (heffect.pcOk hstack hp) (heffect.stackOk hstack hp) hrun
      (hfault.trans hnone)
  | waits x hx => subst hx; exact hs.waits hnone hf

theorem engineStep_keeps_inv (hs : EngineInv s) (h : engineStep s = .next t) : EngineInv t := by
  cases engineStep_inv h with
  | halted => exact hs
  | fetchFault _ a => exact hs.faulted (by decide) 0 a
  | unknown _ w => exact hs.faulted (by decide) w 0
  | runs hm i hf hexec => exact exec_keeps_inv hs hm hf hexec

theorem tick_keeps_inv (hs : EngineInv s) : EngineInv (tick s) := by
  by_cases hm : s.mode = .halted
  · rwa [tick_of_halted hm]
  · rw [tick_of_running hm]; exact hs

/-- A reset state with canonical memory meets the invariant. -/
theorem engineInv_reset {t : State} (hmem : MemoryOk t) (hpc : t.pc = State.reset.pc) (hsp : t.sp = 0)
    (hm : t.mode = .running) (hfault : t.fault = none) : EngineInv t := by
  have hpcOk : PcOk t := by unfold PcOk; rw [hpc]; decide
  exact engineInv_of_running hmem hpcOk (fun k hk => by rw [hsp] at hk; cases hk) hm hfault

theorem memoryOk_imageMemory {rom : List Byte} (h : rom.length ≤ 3584) (hmem : t.mem = imageMemory rom) :
    MemoryOk t := by
  unfold MemoryOk
  rw [hmem]
  exact ⟨Memory.writeBytes_wf (by simp [Memory.wf]) _ rom,
    Memory.writeBytes_below (by simp) rom (by simp only [Config.programBase]; omega)⟩

theorem performEvent_keeps_inv (hs : EngineInv s) (h : performEvent s e = .next t) : EngineInv t := by
  cases performEvent_inv h with
  | step hstep => exact engineStep_keeps_inv hs hstep
  | tick => exact tick_keeps_inv hs
  | setKeys | ackDirty => exact hs
  | reset rom hlen => exact engineInv_reset (memoryOk_imageMemory hlen rfl) rfl rfl rfl rfl

/-- The invariant speaks of neither the line of events nor the counter of choices. -/
theorem takeEvent_keeps_inv (hs : EngineInv s) : EngineInv (takeEvent s) := by
  unfold takeEvent
  split <;> exact hs

/-- Settles O27: the next event is taken off and performed, and both keep the invariant. -/
theorem everyStepKeepsTheInvariant : Obligations.EveryStepKeepsTheInvariant :=
  fun _ _ hs h => performEvent_keeps_inv (takeEvent_keeps_inv hs) h

/-- Settles O26: the reset state is the one after a reset with the empty image. -/
theorem resetMeetsTheInvariant : Obligations.ResetMeetsTheInvariant :=
  engineInv_reset (memoryOk_imageMemory (rom := []) (by decide) rfl) rfl rfl rfl rfl

end Sys2Proof.Machine
